-- ==== Sys2Proof/Word.lean ====
section
/-! DEFINITION. The word types of the tone engine: 32-bit registers (R10, R32) and bytes (R15). -/

namespace Sys2Proof

/-- A register value or a CMD word (R10, R32). -/
abbrev Word := BitVec 32

/-- A byte of a token or of a command's ARG field (R15, R92). -/
abbrev Byte := BitVec 8

end Sys2Proof
end

