-- ==== Sys2Proof/Syntax.lean ====
section
/-! DEFINITION. The eight commands of the opcode table (R94), one constructor per row. -/

namespace Sys2Proof

/-- A command of the block (R94). The byte operands are the ARG field, an unsigned byte (R92). -/
inductive Instr where
  /-- NOP, OPC 0x00 (R171). -/
  | nop
  /-- TOK_CLEAR, OPC 0x01 (R111). -/
  | tokClear
  /-- TOK_PUSH b, OPC 0x02 (R112). -/
  | tokPush (b : Byte)
  /-- RESOLVE, OPC 0x03 (R126). -/
  | resolve
  /-- SET_TONE, OPC 0x04 (R149). -/
  | setTone
  /-- SILENCE, OPC 0x05 (R150). -/
  | silence
  /-- PLAY_TOKEN, OPC 0x06 (R172). -/
  | playToken
  /-- KEY_TONE b, OPC 0x07 (R175). -/
  | keyTone (b : Byte)
  deriving DecidableEq, Repr

end Sys2Proof
end

