-- ==== Sys2Proof/Decode.lean ====
section
/-! DEFINITION. The command encoding of 30_encoding.md: the fields of CMD32 (R90), the decoder, total over all 2^32
words (R95), and the encoder. -/

namespace Sys2Proof

/-- OPC, bits 7:0 (R91). -/
def opcField (w : Word) : Byte := w.extractLsb' 0 8

/-- ARG, bits 15:8 (R92). -/
def argField (w : Word) : Byte := w.extractLsb' 8 8

/-- RSV, bits 31:16 (R93). -/
def rsvField (w : Word) : BitVec 16 := w.extractLsb' 16 16

/-- Which clause of R95 makes a word illegal. -/
inductive IllegalWord where
  /-- Clause 1: w[31:16] ≠ 0. -/
  | rsvNonzero
  /-- Clause 2: w[7:0] ≥ 0x08. -/
  | opcUnassigned
  /-- Clause 3: ARG ≠ 0 on a command that takes no byte. -/
  | argNonzero
  deriving DecidableEq, Repr

/-- A command without operand: ARG must be 0 (R92). -/
def decodeNoArg (w : Word) (i : Instr) : Except IllegalWord Instr :=
  if argField w = 0 then .ok i else .error .argNonzero

/-- The command a CMD word encodes, or the clause of R95 that makes it illegal (R90 to R95). -/
def decode (w : Word) : Except IllegalWord Instr :=
  if rsvField w = 0 then
    match (opcField w).toNat with
    | 0x00 => decodeNoArg w .nop
    | 0x01 => decodeNoArg w .tokClear
    | 0x02 => .ok (.tokPush (argField w))
    | 0x03 => decodeNoArg w .resolve
    | 0x04 => decodeNoArg w .setTone
    | 0x05 => decodeNoArg w .silence
    | 0x06 => decodeNoArg w .playToken
    | 0x07 => .ok (.keyTone (argField w))
    | _ => .error .opcUnassigned
  else .error .rsvNonzero

/-- The CMD word {RSV, ARG, OPC} of the given fields (R90). -/
def cmd32 (arg opc : Byte) : Word := (0#16 ++ arg) ++ opc

/-- The word of a command: the match column of R94, with the byte operand in ARG. -/
def encode : Instr → Word
  | .nop => cmd32 0x00#8 0x00#8
  | .tokClear => cmd32 0x00#8 0x01#8
  | .tokPush b => cmd32 b 0x02#8
  | .resolve => cmd32 0x00#8 0x03#8
  | .setTone => cmd32 0x00#8 0x04#8
  | .silence => cmd32 0x00#8 0x05#8
  | .playToken => cmd32 0x00#8 0x06#8
  | .keyTone b => cmd32 b 0x07#8

/-- The CMD word of an instruction of `nbits` bits with value `w`, the bits above `nbits` zero. A command is one 32-bit
word (R90), moved whole (R74), so the table's numbering is the word's own. -/
def tableWord (nbits w : Nat) : Word := BitVec.ofNat 32 (w % 2 ^ nbits)

/-- What the decoder reads from the table word `w` of `nbits` bits. -/
def decodeTableWord (nbits w : Nat) : Option Instr :=
  match decode (tableWord nbits w) with
  | .ok i => some i
  | .error _ => none

end Sys2Proof
end

