-- ==== Sys2Proof/Config.lean ====
section
/-! DEFINITION. The implementation parameters of R7. SYS_CLK_HZ is OPEN: a constant without a body. The others are
fixed by the spec. FREQ_FN, PC_TABLE and KEY_MAP are functions and stand in Machine/. -/

namespace Sys2Proof

/-- One less than SYS_CLK_HZ. The spec leaves the clock open (R7, D8), so nothing constrains this number (DESIGN CHOICE, log 5). -/
opaque Config.sysClkHzPred : Nat

/-- SYS_CLK_HZ: "a positive integer, the timer's input clock in Hz" (R7), otherwise open. -/
def Config.sysClkHz : Nat := Config.sysClkHzPred + 1

/-- TOKEN_CAP: the token buffer's size in bytes (R7, R45). -/
abbrev Config.tokenCap : Nat := 31

/-- TOP_MAX: the largest period (R7, R145). -/
abbrev Config.topMax : Nat := 65535

/-- DIV_MAX: the largest divider (R7, C1). -/
abbrev Config.divMax : Nat := 256

/-- REF_NOTE: the note number of A4 (R7). -/
abbrev Config.refNote : Int := 69

/-- REF_HZ: the frequency of A4 (R7). -/
abbrev Config.refHz : Nat := 440

end Sys2Proof
end

