-- ==== Sys2Proof/Machine/State.lean ====
section
/-! DEFINITION. The state of the block (R48), the events that reach it from outside, what is observed of it (R9), and
the reasons a step can stop. -/

namespace Sys2Proof.Machine

/-- STATUS.RES_KIND (R34): the kind of the last resolved token. -/
inductive ResKind where
  /-- 0: no RESOLVE or PLAY_TOKEN since reset. -/
  | noResult
  /-- 1: the token was a rest. -/
  | rest
  /-- 2: the token was a pitch. -/
  | pitch
  /-- 3: the token was invalid. -/
  | invalid
  deriving DecidableEq, Repr

/-- STATUS.RES_CAUSE (R34, R124): which step rejected the token. -/
inductive ResCause where
  /-- 0: RES_KIND is not INVALID. -/
  | noCause
  /-- 1: empty token or no note letter (R117). -/
  | badLetter
  /-- 2: the octave field is empty or not `-?digits` (R119). -/
  | badOctave
  /-- 3: the frequency is not a positive finite binary32 (R123). -/
  | range
  deriving DecidableEq, Repr

/-- STATUS.LAST_ERR (R34, R190). The codes 4..15 are never produced and have no constructor (DEDUCED, log 14). -/
inductive ErrCode where
  /-- 0: the last command completed without error. -/
  | ok
  /-- 1: an illegal CMD word (R191). -/
  | illegalCmd
  /-- 2: SET_TONE on a NaN or +∞ (R141). -/
  | badFreq
  /-- 3: the token resolved to Invalid (R125). -/
  | tokenInvalid
  deriving DecidableEq, Repr

/-- Who issues an access on the register port. -/
inductive Requester where
  /-- The block's one owner (R220). -/
  | host
  /-- Any other agent: outside the model (R221). -/
  | second
  deriving DecidableEq, Repr

/-- A register access: byte offset in the window and width in bytes, any of which may be one the port does not admit
(R73). A write carries its value as a word; no rule reads it for a width that is not admitted (DESIGN CHOICE, log 11). -/
inductive Access where
  /-- `MemRead(offset, size)` (R71). -/
  | read (offset size : Nat)
  /-- `MemWrite(offset, size, value)` (R72). -/
  | write (offset size : Nat) (value : Word)
  deriving DecidableEq, Repr

/-- What can reach the block between two steps (R8, R9, R230). -/
inductive Event where
  /-- A register access (R71, R72). -/
  | access (by_ : Requester) (a : Access)
  /-- An edge of the SYS_CLK_HZ clock (R211). -/
  | clockEdge
  /-- The reset input is asserted (R230). -/
  | resetAssert
  /-- The reset input is released (R230). -/
  | resetRelease
  deriving DecidableEq, Repr

/-- What a model observes besides a fault (R9). -/
inductive Observation where
  /-- The host read `value` from the register at `offset`. -/
  | readValue (offset : Nat) (value : Word)
  /-- The level of TONE_OUT at a clock edge. -/
  | toneOut (level : Bool)
  deriving DecidableEq, Repr

/-- The state of the block, R48's tuple, followed by three fields of the model's own: the level of the reset input, the
events still to come and the observations made. -/
structure State where
  /-- CTRL.ERR_SILENCE (R33). -/
  errSilence : Bool
  /-- STATUS.CH_EN (R34). -/
  chEn : Bool
  /-- STATUS.RES_KIND (R34). -/
  resKind : ResKind
  /-- STATUS.RES_CAUSE (R34). -/
  resCause : ResCause
  /-- STATUS.TOK_LEN, bits 12:8 (R34, R45). -/
  tokLen : BitVec 5
  /-- STATUS.LAST_ERR (R34). -/
  lastErr : ErrCode
  /-- ERRFLAGS[2:0] (R37). -/
  errflags : BitVec 3
  /-- FREQ, the operand of SET_TONE (R38). -/
  freq : Word
  /-- RES_FREQ (R39). -/
  resFreq : Word
  /-- RES_NOTE (R40). -/
  resNote : Word
  /-- CH_DIV.DIV (R41). -/
  chDiv : BitVec 9
  /-- CH_TOP.TOP (R42). -/
  chTop : BitVec 16
  /-- CH_LEVEL.LEVEL (R43). -/
  chLevel : BitVec 17
  /-- TOKBUF[0..30] (R45). -/
  tokbuf : Vector Byte Config.tokenCap
  /-- CTR, the timer's counter (R47). -/
  ctr : BitVec 16
  /-- PRESC, the timer's prescale count (R47). -/
  presc : BitVec 8
  /-- The model's own: the reset input is asserted (R230, DESIGN CHOICE, log 10). -/
  inReset : Bool
  /-- The model's own: the events still to come, the next one first (R8, R214, DESIGN CHOICE, log 1). -/
  pending : List Event
  /-- The model's own: what has been observed, the newest first (R9, DESIGN CHOICE, log 3). -/
  observed : List Observation
  deriving DecidableEq, Repr

/-- Why a step stops with a fault. -/
inductive Fault where
  /-- `BusError(offset)`: raised by an access the port does not admit (R73) and by any host access while reset is
  asserted (R230). Safe: the spec asks a model to fault here, and no state of the block changes (DEDUCED, log 8). -/
  | busError (offset : Nat)
  deriving DecidableEq, Repr

/-- Why a step is refused. -/
inductive Refusal where
  /-- An arm of `exec` without a meaning. Raised by no arm of this model. Safe: no state follows. -/
  | notModelled (mnemonic : String)
  /-- `REFUSED: second requester`: an access by an agent other than the host. R221 demands this refusal by name. Safe:
  no state follows, so nothing is claimed about two owners (DESIGN CHOICE, log 9). -/
  | secondRequester
  deriving DecidableEq, Repr

/-- The machine right after reset (R231). The spec leaves the bytes of TOKBUF unspecified; they are zero here (DESIGN CHOICE, log 4).
The last three fields are the model's own (DESIGN CHOICE, logs 10, 19). -/
def State.reset : State where
  errSilence := true
  chEn := false
  resKind := .noResult
  resCause := .noCause
  tokLen := 0
  lastErr := .ok
  errflags := 0
  freq := 0x00000000
  resFreq := 0x00000000
  resNote := 0x00000000
  chDiv := 1
  chTop := 0
  chLevel := 0
  tokbuf := Vector.replicate Config.tokenCap 0
  ctr := 0
  presc := 0
  inReset := false
  pending := []
  observed := []

end Sys2Proof.Machine
end

