-- ==== Sys2Proof/Machine/Flags.lean ====
section
/-! DEFINITION. The flags: the codes of the STATUS fields (R34), the layout of STATUS, and the sticky bits of ERRFLAGS
(R37, R192). -/

namespace Sys2Proof.Machine

/-- The bits of RES_KIND (R34). -/
def kindCode : ResKind → BitVec 2
  | .noResult => 0
  | .rest => 1
  | .pitch => 2
  | .invalid => 3

/-- The bits of RES_CAUSE (R34, R124). -/
def causeCode : ResCause → BitVec 2
  | .noCause => 0
  | .badLetter => 1
  | .badOctave => 2
  | .range => 3

/-- The bits of LAST_ERR (R34, R190). -/
def errCode : ErrCode → BitVec 4
  | .ok => 0
  | .illegalCmd => 1
  | .badFreq => 2
  | .tokenInvalid => 3

/-- STATUS as the host reads it (R34): reserved bits read as 0. -/
def statusWord (s : State) : Word :=
  0#12 ++ errCode s.lastErr ++ 0#3 ++ s.tokLen ++ 0#3 ++ causeCode s.resCause ++ kindCode s.resKind ++
    BitVec.ofBool s.chEn

/-- The sticky bit of an error code, ERRFLAGS[E - 1] (R37, R192). OK has none. -/
def stickyBit : ErrCode → BitVec 3
  | .ok => 0b000
  | .illegalCmd => 0b001
  | .badFreq => 0b010
  | .tokenInvalid => 0b100

/-- ERRFLAGS after an error report: the code's bit set, the others kept (R192). -/
def raiseFlag (flags : BitVec 3) (e : ErrCode) : BitVec 3 := flags ||| stickyBit e

/-- ERRFLAGS after a host write: a bit written 1 is cleared, a bit written 0 is kept (R37). -/
def clearFlags (flags : BitVec 3) (v : Word) : BitVec 3 := flags &&& ~~~(v.extractLsb' 0 3)

end Sys2Proof.Machine
end

