-- ==== Sys2Proof/Machine/Operands.lean ====
section
/-! DEFINITION. The operand forms (R97): binary32 patterns (R13), rounding (R14), bytes and tokens (R15, R45), the
pitch-class table and the key map (R7). -/

namespace Sys2Proof.Machine

/-! ## Binary32 (R13) -/

/-- The sign bit b[31]. -/
def f32Sign (b : Word) : Bool := b.getLsbD 31

/-- The biased exponent b[30:23]. -/
def f32Exp (b : Word) : Nat := (b.extractLsb' 23 8).toNat

/-- The fraction b[22:0]. -/
def f32Frac (b : Word) : Nat := (b.extractLsb' 0 23).toNat

/-- isNaN (R13). -/
def isNaN (b : Word) : Bool := f32Exp b == 255 && f32Frac b != 0

/-- isPosInf (R13). -/
def isPosInf (b : Word) : Bool := b == 0x7F800000#32

/-- isNegInf (R13). -/
def isNegInf (b : Word) : Bool := b == 0xFF800000#32

/-- The positive finite patterns, normal or subnormal (R141). -/
def isPosFinite (b : Word) : Bool := 0x00000001 ≤ b.toNat && b.toNat ≤ 0x7F7FFFFF

/-- `val(b)` as R13 writes it: the exact rational of a finite pattern. -/
def f32Val (b : Word) : ℚ :=
  (if f32Sign b then -1 else 1) *
    if f32Exp b = 0 then (2 : ℚ) ^ (-126 : ℤ) * ((f32Frac b : ℚ) / 2 ^ 23)
    else (2 : ℚ) ^ ((f32Exp b : ℤ) - 127) * (1 + (f32Frac b : ℚ) / 2 ^ 23)

/-- The integer significand of a finite pattern's magnitude: val(b) = ± significand · 2^scale. -/
def significand (b : Word) : Nat := if f32Exp b = 0 then f32Frac b else 2 ^ 23 + f32Frac b

/-- The exponent that goes with `significand`. -/
def scale (b : Word) : Int := (max (f32Exp b) 1 : Nat) - 150

/-- The three ways SET_TONE takes its operand (R141). -/
inductive FreqClass where
  /-- NaN of either sign, or +∞. -/
  | bad
  /-- ±0.0, every negative finite value, −∞. -/
  | silent
  /-- Positive and finite. -/
  | tone
  deriving DecidableEq, Repr

/-- The class of an operand, tested in R149's order. -/
def classify (b : Word) : FreqClass :=
  if isNaN b || isPosInf b then .bad
  else if f32Sign b || b == 0x00000000#32 then .silent
  else .tone

/-! ## Rounding -/

/-- `round_half_up(num/den)` = floor(num/den + 1/2) for a positive den (R14). -/
def roundHalfUp (num den : Nat) : Nat := (2 * num + den) / (2 * den)

/-- Is the real x past the midpoint between pattern q and the next one up, so that rne32(x) lies above q? The real is
given by how `m·2^e` compares with it; a tie goes to the even fraction (R13). The midpoint above the last finite
pattern is 2^128·(1 − 2^−25), the one above zero is 2^−150, as R13 says. -/
def roundsAbove (cmp : Nat → Int → Ordering) (q : Nat) : Bool :=
  let b := BitVec.ofNat 32 q
  match cmp (2 * significand b + 1) (scale b - 1) with
  | .lt => true
  | .eq => q % 2 == 1
  | .gt => false

/-- The pattern of +∞, the top of the ordered scale of non-negative patterns. -/
def infPattern : Nat := 0x7F800000

/-- The greatest pattern c ≤ +∞ all of whose lower neighbours round above, found bit by bit from the top: bits k−1..0
are still to be decided. -/
def searchPattern (above : Nat → Bool) : (k acc : Nat) → Nat
  | 0, acc => acc
  | k + 1, acc =>
    let c := acc + 2 ^ k
    searchPattern above k (if c ≤ infPattern && above (c - 1) then c else acc)

/-- `rne32(x)` (R13): the binary32 value nearest to the positive real x, ties to even fraction; `cmp m e` says how
m·2^e compares with x. -/
def rne32 (cmp : Nat → Int → Ordering) : Word := BitVec.ofNat 32 (searchPattern (roundsAbove cmp) 31 0)

/-- How m·2^e compares with the rational num/den. -/
def compareRat (num den m : Nat) (e : Int) : Ordering :=
  compare (m * den * 2 ^ e.toNat) (num * 2 ^ (-e).toNat)

/-- `rne32` of a non-negative rational (R13, R100). -/
def rne32Rat (num den : Nat) : Word := rne32 (compareRat num den)

/-! ## Bytes and tokens -/

/-- `upper(c)` (R15): ASCII 'a'..'z' to 'A'..'Z', every other byte unchanged. -/
def upper (c : Byte) : Byte := if 0x61#8 ≤ c ∧ c ≤ 0x7A#8 then c - 0x20#8 else c

/-- The whitespace bytes (R115). -/
def isSpace (c : Byte) : Bool := c == 0x20#8 || (0x09#8 ≤ c && c ≤ 0x0D#8)

/-- The bytes '0'..'9' (R10, R119). -/
def isDigit (c : Byte) : Bool := 0x30#8 ≤ c && c ≤ 0x39#8

/-- The token operand, TOKBUF[0..TOK_LEN−1] (R45, R97). -/
def token (s : State) : List Byte := s.tokbuf.toList.take s.tokLen.toNat

/-- PC_TABLE (R7, R117): the pitch class of a note letter, given in upper case. -/
def pitchClass (c : Byte) : Option Nat :=
  if c = 0x43#8 then some 0        -- 'C'
  else if c = 0x44#8 then some 2   -- 'D'
  else if c = 0x45#8 then some 4   -- 'E'
  else if c = 0x46#8 then some 5   -- 'F'
  else if c = 0x47#8 then some 7   -- 'G'
  else if c = 0x41#8 then some 9   -- 'A'
  else if c = 0x42#8 then some 11  -- 'B'
  else none

/-- KEY_MAP (R7, R175): the frequency, as binary32, of a received byte; none for a byte that is a rest. -/
def keyFreq (b : Byte) : Option Word :=
  if b = 0x41#8 then some 0x42C80000#32       -- 'A', 100.0
  else if b = 0x42#8 then some 0x43480000#32  -- 'B', 200.0
  else if b = 0x43#8 then some 0x43960000#32  -- 'C', 300.0
  else if b = 0x44#8 then some 0x43C80000#32  -- 'D', 400.0
  else if b = 0x45#8 then some 0x43FA0000#32  -- 'E', 500.0
  else none

end Sys2Proof.Machine
end

