-- ==== Sys2Proof/Machine/Ops.lean ====
section
/-! DEFINITION. The named operations over the state: one update per group of fields, the error report (R192), the
register map (R32), the register reads (R71), the register writes (R72), the token buffer (R45) and the reset (R230). -/

namespace Sys2Proof.Machine

/-! ## Updates -/

/-- Writes CTRL.ERR_SILENCE (R33). -/
def setErrSilence (v : Bool) (s : State) : State := { s with errSilence := v }

/-- Writes STATUS.CH_EN (R34). -/
def setChEn (v : Bool) (s : State) : State := { s with chEn := v }

/-- Writes RES_KIND, RES_CAUSE, RES_NOTE and RES_FREQ (R125). -/
def setResult (k : ResKind) (c : ResCause) (note freq : Word) (s : State) : State :=
  { s with resKind := k, resCause := c, resNote := note, resFreq := freq }

/-- Writes TOK_LEN (R45). -/
def setTokLen (n : BitVec 5) (s : State) : State := { s with tokLen := n }

/-- Writes the bytes of TOKBUF (R45). -/
def setTokbuf (b : Vector Byte Config.tokenCap) (s : State) : State := { s with tokbuf := b }

/-- Writes STATUS.LAST_ERR (R34). -/
def setLastErr (e : ErrCode) (s : State) : State := { s with lastErr := e }

/-- Writes ERRFLAGS[2:0] (R37). -/
def setErrflags (f : BitVec 3) (s : State) : State := { s with errflags := f }

/-- Writes FREQ (R38). -/
def setFreq (v : Word) (s : State) : State := { s with freq := v }

/-- Writes CH_DIV, CH_TOP and CH_LEVEL (R41 to R43). -/
def setProgram (d : BitVec 9) (p : BitVec 16) (l : BitVec 17) (s : State) : State :=
  { s with chDiv := d, chTop := p, chLevel := l }

/-- Writes CTR and PRESC (R47). -/
def setCounter (c : BitVec 16) (p : BitVec 8) (s : State) : State := { s with ctr := c, presc := p }

/-- Sets the level of the reset input (the model's own, DESIGN CHOICE, log 10). -/
def setInReset (v : Bool) (s : State) : State := { s with inReset := v }

/-- Sets the events still to come (the model's own, DESIGN CHOICE, log 1). -/
def setPending (es : List Event) (s : State) : State := { s with pending := es }

/-- Records an observation (the model's own, DESIGN CHOICE, log 3). -/
def observe (o : Observation) (s : State) : State := { s with observed := o :: s.observed }

/-! ## The error report -/

/-- `report(E)` (R192): LAST_ERR and the sticky bit. The block has no trap (R193), so this one operation is all that an
error does: no mode, no saved state, no transfer of control. -/
def report (e : ErrCode) (s : State) : State := setErrflags (raiseFlag s.errflags e) (setLastErr e s)

/-! ## The register map -/

/-- The ten registers of R32. -/
inductive Reg where
  | ctrl | status | errflags | cmd | freq | resFreq | resNote | chDiv | chTop | chLevel
  deriving DecidableEq, Repr

/-- The byte offset of a register (R32). -/
def regOffset : Reg → Nat
  | .ctrl => 0x00
  | .status => 0x04
  | .errflags => 0x08
  | .cmd => 0x0C
  | .freq => 0x10
  | .resFreq => 0x14
  | .resNote => 0x18
  | .chDiv => 0x1C
  | .chTop => 0x20
  | .chLevel => 0x24

/-- The register at an offset; none at the reserved offsets 0x28..0x3C (R46). -/
def regAt (a : Nat) : Option Reg :=
  match a with
  | 0x00 => some .ctrl
  | 0x04 => some .status
  | 0x08 => some .errflags
  | 0x0C => some .cmd
  | 0x10 => some .freq
  | 0x14 => some .resFreq
  | 0x18 => some .resNote
  | 0x1C => some .chDiv
  | 0x20 => some .chTop
  | 0x24 => some .chLevel
  | _ => none

/-- The value of a register as the host reads it, every reserved field 0 (R33 to R44). CMD reads as 0 (R44). -/
def regValue (s : State) : Reg → Word
  | .ctrl => 0#31 ++ BitVec.ofBool s.errSilence
  | .status => statusWord s
  | .errflags => 0#29 ++ s.errflags
  | .cmd => 0x00000000#32
  | .freq => s.freq
  | .resFreq => s.resFreq
  | .resNote => s.resNote
  | .chDiv => 0#23 ++ s.chDiv
  | .chTop => 0#16 ++ s.chTop
  | .chLevel => 0#15 ++ s.chLevel

/-- `regval(a)` (R71): the reserved offsets read as 0 (R46). -/
def regval (s : State) (a : Nat) : Word :=
  match regAt a with
  | some r => regValue s r
  | none => 0x00000000#32

/-- Does the port admit an access at this offset and width (R73)? -/
def admitted (offset size : Nat) : Bool := size == 4 && offset % 4 == 0 && offset ≤ 0x3C

/-- The effect of a host write on a register other than CMD (R72): CTRL and FREQ are written, ERRFLAGS is
write-1-to-clear, the read-only and reserved offsets ignore the write. The write to CMD runs a command: `Port.lean`. -/
def writeReg (r : Option Reg) (v : Word) (s : State) : State :=
  match r with
  | some .ctrl => setErrSilence (v.getLsbD 0) s
  | some .errflags => setErrflags (clearFlags s.errflags v) s
  | some .freq => setFreq v s
  | some .status | some .cmd | some .resFreq | some .resNote | some .chDiv | some .chTop | some .chLevel => s
  | none => s

/-! ## The token buffer -/

/-- Empties the token buffer; its bytes stay (R111). -/
def clearToken (s : State) : State := setTokLen 0 s

/-- Appends a byte, or drops it when the buffer is full (R112). -/
def pushToken (b : Byte) (s : State) : State :=
  if h : s.tokLen.toNat < Config.tokenCap then
    setTokLen (s.tokLen + 1) (setTokbuf (s.tokbuf.set s.tokLen.toNat b h) s)
  else s

/-! ## Reset -/

/-- The reset input is asserted: every piece of state takes its reset value at once (R230, R231). What is outside the
block, the events to come and the observations made, stays. -/
def assertReset (s : State) : State :=
  { State.reset with inReset := true, pending := s.pending, observed := s.observed }

/-- The reset input is released: the block waits for accesses (R232). -/
def releaseReset (s : State) : State := setInReset false s

end Sys2Proof.Machine
end

