-- ==== Sys2Proof/Machine/Channel.lean ====
section
/-! DEFINITION. The Tone Driver's procedure (R141 to R148) and the timer channel (R210 to R213). The clock is an
argument, as R7 makes SYS_CLK_HZ a parameter. -/

namespace Sys2Proof.Machine

/-! ## The divider search -/

/-- The period candidate cand(d, b) = round_half_up(SYS_CLK_HZ / (d · val(b))) − 1 (R143), for b positive finite:
val(b) = significand · 2^scale, with the power of two on the side where it is an integer. -/
def cand (clk d : Nat) (b : Word) : Int :=
  (roundHalfUp (clk * 2 ^ (-scale b).toNat) (d * significand b * 2 ^ (scale b).toNat) : Int) - 1

/-- `fits(p)` (R145): 0 ≤ p ≤ 65535. -/
def fits (p : Int) : Bool := 0 ≤ p && p ≤ (Config.topMax : Int)

/-- The clamp program (R146). -/
def clampProgram : Nat × Nat := (Config.divMax, Config.topMax)

/-- R144's loop from divider d with k trials left: the first divider whose candidate fits, or the clamp. -/
def searchFrom (clk : Nat) (b : Word) : (k d : Nat) → Nat × Nat
  | 0, _ => clampProgram
  | k + 1, d => if fits (cand clk d b) then (d, (cand clk d b).toNat) else searchFrom clk b k (2 * d)

/-- The (divider, period) found for a positive finite frequency: d = 1, 2, 4, …, 256, nine trials (R144). -/
def search (clk : Nat) (b : Word) : Nat × Nat := searchFrom clk b 9 1

/-! ## Programming and silencing -/

/-- LEVEL = (p + 1) div 2 (R147). -/
def dutyLevel (p : Nat) : Nat := (p + 1) / 2

/-- Does the enabled channel already run this program (R148)? -/
def sameProgram (d : BitVec 9) (p : BitVec 16) (l : BitVec 17) (s : State) : Bool :=
  s.chEn && s.chDiv == d && s.chTop == p && s.chLevel == l

/-- `program(d, p)` (R148): the four fields change together; the counter restarts unless the same program runs. -/
def program (d p : Nat) (s : State) : State :=
  let d' := BitVec.ofNat 9 d
  let p' := BitVec.ofNat 16 p
  let l' := BitVec.ofNat 17 (dutyLevel p)
  let t := setChEn true (setProgram d' p' l' s)
  if sameProgram d' p' l' s then t else setCounter 0 0 t

/-- `silence()` (R142): CH_EN <- 0 and nothing else. -/
def silence (s : State) : State := setChEn false s

/-- `search_and_program(b)` (R144). -/
def searchAndProgram (clk : Nat) (b : Word) (s : State) : State := program (search clk b).1 (search clk b).2 s

/-- `set_tone(b)` (R141, R149), with LAST_ERR. -/
def setTone (clk : Nat) (b : Word) (s : State) : State :=
  match classify b with
  | .bad => report .badFreq s
  | .silent => setLastErr .ok (silence s)
  | .tone => setLastErr .ok (searchAndProgram clk b s)

/-- The effect of a received key on the channel (R175), with LAST_ERR. -/
def keyTone (clk : Nat) (b : Byte) (s : State) : State :=
  match keyFreq b with
  | some f => setLastErr .ok (searchAndProgram clk f s)
  | none => setLastErr .ok (silence s)

/-! ## The timer channel -/

/-- `timer_step()` (R211). PRESC = CH_DIV − 1 is compared without subtracting (DESIGN CHOICE, log 12). -/
def timerStep (s : State) : State :=
  if s.chEn then
    if s.presc.toNat + 1 = s.chDiv.toNat then setCounter (if s.ctr = s.chTop then 0 else s.ctr + 1) 0 s
    else setCounter s.ctr (s.presc + 1) s
  else s

/-- TONE_OUT = (CH_EN = 1) and (CTR < CH_LEVEL) (R212): a function of the state at every instant. -/
def toneOut (s : State) : Bool := s.chEn && decide (s.ctr.toNat < s.chLevel.toNat)

/-- An edge of SYS_CLK_HZ: the timer steps and the level of TONE_OUT is observed (R9, R211, DESIGN CHOICE, log 3). -/
def onClockEdge (s : State) : State := observe (.toneOut (toneOut (timerStep s))) (timerStep s)

end Sys2Proof.Machine
end

