-- ==== Sys2Proof/Machine/FreqFn.lean ====
section
/-! DEFINITION. FREQ_FN (R121, R122): the reference frequency function, computed exactly. -/

namespace Sys2Proof.Machine

/-- How m·2^e compares with the real 440·2^((n−69)/12) (R121). Both are positive, so their twelfth powers compare the
same way: m^12·2^(12e) against 440^12·2^(n−69), with the power of two moved to the side where it is an integer. -/
def compareNote (n : Int) (m : Nat) (e : Int) : Ordering :=
  let k := 12 * e - (n - Config.refNote)
  compare (m ^ 12 * 2 ^ k.toNat) (Config.refHz ^ 12 * 2 ^ (-k).toNat)

/-- Beyond these note numbers the reference is +0.0 or +∞ by a wide margin (R123 gives −1836 and 1499); the octave is
unbounded (R119), so the power is not computed there (DEDUCED, log 13). -/
def evalBound : Int := 4096

/-- FREQ_FN_ref(n) = rne32(440·2^((n−69)/12)) (R121). -/
def freqFnRef (n : Int) : Word :=
  if n < -evalBound then 0x00000000#32
  else if evalBound < n then 0x7F800000#32
  else rne32 (compareNote n)

/-- The model's FREQ_FN: the parameter at its default, the reference (R7, R122, DESIGN CHOICE, log 6). -/
def freqFn : Int → Word := freqFnRef

end Sys2Proof.Machine
end

