-- ==== Sys2Proof/Machine/Note.lean ====
section
/-! DEFINITION. The Note Resolver's algorithm (R114 to R124). FREQ_FN is an argument, as R122 makes it a parameter. -/

namespace Sys2Proof.Machine

/-- `trim(t)`: without leading and trailing whitespace (R115). -/
def trim (t : List Byte) : List Byte := ((t.dropWhile isSpace).reverse.dropWhile isSpace).reverse

/-- The rest tokens "R" and "REST" (R116). -/
def restTokens : List (List Byte) := [[0x52#8], [0x52#8, 0x45#8, 0x53#8, 0x54#8]]

/-- Is the trimmed token a rest, in any case (R116)? -/
def isRest (s : List Byte) : Bool := restTokens.contains (s.map upper)

/-- The accidental of what follows the note letter, and the octave field after it (R118): only the first byte can be
one, `#` is +1, `b` or `B` is −1, anything else starts the octave field. -/
def accidental : List Byte → Int × List Byte
  | [] => (0, [])
  | c :: cs =>
    if c = 0x23#8 then (1, cs)
    else if c = 0x62#8 ∨ c = 0x42#8 then (-1, cs)
    else (0, c :: cs)

/-- One or more digits and nothing else. -/
def allDigits (ds : List Byte) : Bool := !ds.isEmpty && ds.all isDigit

/-- The decimal value of a digit string. -/
def decimal (ds : List Byte) : Nat := ds.foldl (fun v d => 10 * v + (d.toNat - 0x30)) 0

/-- The octave field's value (R119): digits optionally preceded by '-', unbounded; none when the syntax is wrong. -/
def octave : List Byte → Option Int
  | [] => none
  | c :: cs =>
    if c = 0x2D#8 then (if allDigits cs then some (-(decimal cs : Int)) else none)
    else if allDigits (c :: cs) then some (decimal (c :: cs) : Int)
    else none

/-- What `resolve` returns: (kind, cause, n, f) (R114). -/
structure Resolution where
  kind : ResKind
  cause : ResCause
  note : Int
  freq : Word
  deriving DecidableEq, Repr

/-- The result of a rest (R116). -/
def restResult : Resolution := ⟨.rest, .noCause, 0, 0x00000000#32⟩

/-- The result of an invalid token (R117, R119, R123). -/
def invalidResult (c : ResCause) : Resolution := ⟨.invalid, c, 0, 0x00000000#32⟩

/-- `note_number = (octave + 1)·12 + semitone_offset + accidental` (R120). -/
def noteNumber (oct : Int) (semi : Nat) (acc : Int) : Int := (oct + 1) * 12 + semi + acc

/-- The end of `resolve`: the frequency of a note number and the range check (R121 to R123). -/
def pitchResult (fn : Int → Word) (n : Int) : Resolution :=
  if fn n = 0x00000000#32 ∨ fn n = 0x7F800000#32 then invalidResult .range
  else ⟨.pitch, .noCause, n, fn n⟩

/-- `resolve(t)` for a given FREQ_FN (R114). -/
def resolveWith (fn : Int → Word) (t : List Byte) : Resolution :=
  let s := trim t
  if isRest s then restResult
  else
    match s with
    | [] => invalidResult .badLetter
    | c :: cs =>
      match pitchClass (upper c) with
      | none => invalidResult .badLetter
      | some semi =>
        let (acc, o) := accidental cs
        match octave o with
        | none => invalidResult .badOctave
        | some oct => pitchResult fn (noteNumber oct semi acc)

/-- `resolve(t)` with the model's FREQ_FN (R114). -/
def resolve (t : List Byte) : Resolution := resolveWith freqFn t

end Sys2Proof.Machine
end

