-- ==== Sys2Proof/Machine/Result.lean ====
section
/-! DEFINITION. Writing a resolution into the result registers (R125). -/

namespace Sys2Proof.Machine

/-- `twos_32(n)` (R11): the 32-bit two's-complement pattern of an integer. -/
def twos32 (n : Int) : Word := BitVec.ofInt 32 n

/-- `commit_result(kind, cause, n, f)` (R125): RES_NOTE and RES_FREQ are zero unless the token is a pitch; an invalid
token is reported. -/
def commitResult (r : Resolution) (s : State) : State :=
  let pitch := r.kind = .pitch
  let t := setResult r.kind r.cause (if pitch then twos32 r.note else 0x00000000#32)
    (if pitch then r.freq else 0x00000000#32) s
  if r.kind = .invalid then report .tokenInvalid t else setLastErr .ok t

end Sys2Proof.Machine
end

