-- ==== Sys2Proof/Machine/FrontEndFamily.lean ====
section
/-! DEFINITION. The front-end commands: NOP, PLAY_TOKEN and KEY_TONE (42_front_ends.md). -/

namespace Sys2Proof.Machine

/-- NOP (R171): it clears the last error code and nothing else. -/
def execNop (s : State) : Host.Outcome State Fault Refusal := .next (setLastErr .ok s)

/-- What PLAY_TOKEN does to the channel with a resolution (R172 to R174): a pitch is programmed, a rest silences, an
invalid token follows CTRL.ERR_SILENCE. -/
def driveChannel (clk : Nat) (r : Resolution) (s : State) : State :=
  match r.kind with
  | .pitch => searchAndProgram clk r.freq s
  | .rest => silence s
  | .invalid => if s.errSilence then silence s else s
  | .noResult => s

/-- `PLAY_TOKEN` for a given clock (R172). -/
def playToken (clk : Nat) (s : State) : State :=
  driveChannel clk (resolve (token s)) (commitResult (resolve (token s)) s)

/-- PLAY_TOKEN (R172). -/
def execPlayToken (s : State) : Host.Outcome State Fault Refusal := .next (playToken Config.sysClkHz s)

/-- KEY_TONE b (R175). -/
def execKeyTone (b : Byte) (s : State) : Host.Outcome State Fault Refusal := .next (keyTone Config.sysClkHz b s)

end Sys2Proof.Machine
end

