-- ==== Sys2Proof/Machine/TokenFamily.lean ====
section
/-! DEFINITION. The resolver family: TOK_CLEAR, TOK_PUSH and RESOLVE (40_resolver.md). -/

namespace Sys2Proof.Machine

/-- TOK_CLEAR (R111). -/
def execTokClear (s : State) : Host.Outcome State Fault Refusal := .next (setLastErr .ok (clearToken s))

/-- TOK_PUSH b (R112). A full buffer is not an error. -/
def execTokPush (b : Byte) (s : State) : Host.Outcome State Fault Refusal := .next (setLastErr .ok (pushToken b s))

/-- RESOLVE (R126): the token is resolved into the result registers; the channel is not touched. -/
def execResolve (s : State) : Host.Outcome State Fault Refusal := .next (commitResult (resolve (token s)) s)

end Sys2Proof.Machine
end

