-- ==== Sys2Proof/Machine/ToneFamily.lean ====
section
/-! DEFINITION. The Tone Driver's commands: SET_TONE and SILENCE (41_tone_driver.md). -/

namespace Sys2Proof.Machine

/-- SET_TONE (R149): `set_tone` on the pattern in FREQ. -/
def execSetTone (s : State) : Host.Outcome State Fault Refusal := .next (setTone Config.sysClkHz s.freq s)

/-- SILENCE (R150). -/
def execSilence (s : State) : Host.Outcome State Fault Refusal := .next (setLastErr .ok (silence s))

end Sys2Proof.Machine
end

