-- ==== Sys2Proof/Machine/Dispatch.lean ====
section
/-! DEFINITION. The dispatch: one arm per command, each one call of its meaning. -/

namespace Sys2Proof.Machine

def exec (i : Instr) (s : State) : Host.Outcome State Fault Refusal :=
  match i with
  | .nop => Sys2Proof.Machine.execNop s
  | .tokClear => Sys2Proof.Machine.execTokClear s
  | .tokPush b => Sys2Proof.Machine.execTokPush b s
  | .resolve => Sys2Proof.Machine.execResolve s
  | .setTone => Sys2Proof.Machine.execSetTone s
  | .silence => Sys2Proof.Machine.execSilence s
  | .playToken => Sys2Proof.Machine.execPlayToken s
  | .keyTone b => Sys2Proof.Machine.execKeyTone b s

end Sys2Proof.Machine
end

