-- ==== Sys2Proof/Machine/Port.lean ====
section
/-! DEFINITION. The register port (R70 to R78): what an event from outside does to the block. -/

namespace Sys2Proof.Machine

/-- A host write of w to CMD (R44, R76): the command w encodes runs to completion, or the word is illegal and is
reported with no other effect (R95, R191). -/
def writeCmd (w : Word) (s : State) : Host.Outcome State Fault Refusal :=
  match decode w with
  | .ok i => exec i s
  | .error _ => .next (report .illegalCmd s)

/-- `MemWrite(a, 4, v)` at an admitted offset (R72). -/
def memWrite (a : Nat) (v : Word) (s : State) : Host.Outcome State Fault Refusal :=
  match regAt a with
  | some .cmd => writeCmd v s
  | r => .next (writeReg r v s)

/-- `MemRead(a, 4)` at an admitted offset (R71): the value is observed and no state of the block changes. -/
def memRead (a : Nat) (s : State) : State := observe (.readValue a (regval s a)) s

/-- The offset of an access. -/
def accessOffset : Access → Nat
  | .read a _ => a
  | .write a _ _ => a

/-- The width of an access in bytes. -/
def accessSize : Access → Nat
  | .read _ n => n
  | .write _ n _ => n

/-- An access on the port. A second requester is refused (R221, DESIGN CHOICE, log 9). An access the port does not admit, and every
access while reset is asserted, is a BusError before any effect (R73, R196, R230). -/
def onAccess (r : Requester) (a : Access) (s : State) : Host.Outcome State Fault Refusal :=
  match r with
  | .second => .refused .secondRequester
  | .host =>
    if s.inReset || !admitted (accessOffset a) (accessSize a) then .fault (.busError (accessOffset a))
    else
      match a with
      | .read off _ => .next (memRead off s)
      | .write off _ v => memWrite off v s

/-- One event. -/
def onEvent (e : Event) (s : State) : Host.Outcome State Fault Refusal :=
  match e with
  | .access r a => onAccess r a s
  | .clockEdge => .next (onClockEdge s)
  | .resetAssert => .next (assertReset s)
  | .resetRelease => .next (releaseReset s)

/-- The next event: the head of `pending`, or a clock edge when nothing else is to come (R214, R232, DESIGN CHOICE, log 1). -/
def runNext (s : State) : Host.Outcome State Fault Refusal :=
  match s.pending with
  | [] => .next (onClockEdge s)
  | e :: es => onEvent e (setPending es s)

/-- A host write to CMD as an event (R44). -/
def cmdWrite (w : Word) : Event := .access .host (.write (regOffset .cmd) 4 w)

/-- The word `w` is the next thing the host writes to CMD, with the reset input released (DESIGN CHOICE, log 2). -/
def hostWritesNext (w : Word) (s : State) : State := setInReset false (setPending (cmdWrite w :: s.pending) s)

end Sys2Proof.Machine
end

