-- ==== Sys2Proof/Machine/Step.lean ====
section
/-! DEFINITION. One step of the machine, and the state in which the next step runs a given command. -/

namespace Sys2Proof.Machine

/-- One step: the next event reaches the block (R8, R76, R214). -/
def step (s : State) : Host.Outcome State Fault Refusal := runNext s

/-- The state whose very next step writes the table word `w` to CMD. The block fetches nothing (R2, R80): a command
comes with the host's write (DESIGN CHOICE, log 2). -/
def State.withFetchWord (s : State) (nbits w : Nat) : State := hostWritesNext (tableWord nbits w) s

end Sys2Proof.Machine
end

