-- ==== Sys2Proof/Machine/HostProgram.lean ====
section
/-! DEFINITION. Host programs (R99, R100): the lines of a listing, the events each line stands for, and the reader of
the text form. A listing is notation for what the host does; the block never sees it. -/

namespace Sys2Proof.Machine

/-! ## Lines and what they stand for -/

/-- One line of a host program. -/
inductive HostLine where
  /-- A command mnemonic with its byte, if it takes one (R99). -/
  | command (i : Instr)
  /-- `WR <reg>, <v>` (R99). -/
  | wr (r : Reg) (v : Word)
  /-- `RD <reg>` (R99). -/
  | rd (r : Reg)
  /-- `CMD <w>`, any word, legal or not (R99). -/
  | cmdWord (w : Word)
  /-- `TOKEN "s"` (R100). -/
  | tokenText (s : List Byte)
  /-- `PLAY "s"` (R100). -/
  | play (s : List Byte)
  /-- `TONE <x>` with x written as eight hexadecimal digits (R100). -/
  | toneBits (b : Word)
  /-- `TONE <x>` with x the decimal number num/den (R100). -/
  | toneDecimal (num den : Nat)
  /-- `CLRERR` (R100). -/
  | clrErr
  /-- `POLICY SILENCE` (true) or `POLICY KEEP` (false) (R100). -/
  | policy (silence : Bool)
  /-- `CLOCK k`: k edges of SYS_CLK_HZ (95_test_vectors.md, D33). -/
  | clock (k : Nat)
  deriving DecidableEq, Repr

/-- The host writes v to a register (R72). -/
def regWrite (r : Reg) (v : Word) : Event := .access .host (.write (regOffset r) 4 v)

/-- The host reads a register (R71). -/
def regRead (r : Reg) : Event := .access .host (.read (regOffset r) 4)

/-- The host issues a command: a write of its word to CMD (R99). -/
def commandWrite (i : Instr) : Event := cmdWrite (encode i)

/-- `TOKEN "s"`: TOK_CLEAR, then one TOK_PUSH per byte (R100). -/
def tokenEvents (s : List Byte) : List Event := commandWrite .tokClear :: s.map fun b => commandWrite (.tokPush b)

/-- What the host and the clock do for one line (R99, R100). -/
def lineEvents : HostLine → List Event
  | .command i => [commandWrite i]
  | .wr r v => [regWrite r v]
  | .rd r => [regRead r]
  | .cmdWord w => [cmdWrite w]
  | .tokenText s => tokenEvents s
  | .play s => tokenEvents s ++ [commandWrite .playToken]
  | .toneBits b => [regWrite .freq b, commandWrite .setTone]
  | .toneDecimal num den => [regWrite .freq (rne32Rat num den), commandWrite .setTone]
  | .clrErr => [regWrite .errflags 0x00000007#32]
  | .policy silence => [regWrite .ctrl (if silence then 0x00000001#32 else 0x00000000#32)]
  | .clock k => List.replicate k .clockEdge

/-- The events of a program, line by line (R99). Its end state is the one after the last of them (D33). -/
def programEvents (p : List HostLine) : List Event := p.flatMap lineEvents

/-! ## The text form -/

/-- The ASCII byte of a character (R10). -/
def charByte (c : Char) : Byte := BitVec.ofNat 8 c.toNat

/-- A mnemonic or register name in upper case (R99: case-insensitive). -/
def upperWord (w : List Char) : List Char := w.map Char.toUpper

/-- Blanks between the parts of a line (DESIGN CHOICE, log 17). -/
def isBlank (c : Char) : Bool := c == ' ' || c == '\t' || c == '\r'

/-- A list of characters without leading and trailing blanks. -/
def trimBlanks (cs : List Char) : List Char := ((cs.dropWhile isBlank).reverse.dropWhile isBlank).reverse

/-- The line without its comment (R99). A `;` inside a character literal or a string does not start one (DESIGN CHOICE, log 17). -/
def stripComment : (inString : Bool) → List Char → List Char
  | true, '"' :: cs => '"' :: stripComment false cs
  | true, c :: cs => c :: stripComment true cs
  | false, '\'' :: c :: '\'' :: cs => '\'' :: c :: '\'' :: stripComment false cs
  | false, '"' :: cs => '"' :: stripComment true cs
  | false, ';' :: _ => []
  | false, c :: cs => c :: stripComment false cs
  | _, [] => []

/-- The value of a hexadecimal digit, in either case (R99). -/
def hexDigit (c : Char) : Option Nat :=
  if '0' ≤ c ∧ c ≤ '9' then some (c.toNat - '0'.toNat)
  else if 'a' ≤ c ∧ c ≤ 'f' then some (c.toNat - 'a'.toNat + 10)
  else if 'A' ≤ c ∧ c ≤ 'F' then some (c.toNat - 'A'.toNat + 10)
  else none

/-- The value of a digit string in a base, from the value read so far. -/
def readDigits (base : Nat) : (acc : Nat) → List Char → Option Nat
  | acc, [] => some acc
  | acc, c :: cs =>
    match hexDigit c with
    | some d => if d < base then readDigits base (base * acc + d) cs else none
    | none => none

/-- A number: `0x` and hexadecimal digits, or decimal digits; at least one digit (DESIGN CHOICE, log 17). -/
def readNumber : List Char → Option Nat
  | '0' :: 'x' :: c :: cs => readDigits 16 0 (c :: cs)
  | c :: cs => readDigits 10 0 (c :: cs)
  | [] => none

/-- A 32-bit value; a larger number is no value. -/
def readWord (cs : List Char) : Option Word :=
  match readNumber cs with
  | some n => if n < 2 ^ 32 then some (BitVec.ofNat 32 n) else none
  | none => none

/-- A byte operand: `'c'` or `0xNN` (R99). A character literal is ASCII. -/
def readByte : List Char → Option Byte
  | ['\'', c, '\''] => if c.toNat < 128 then some (charByte c) else none
  | ['0', 'x', h, l] => (readDigits 16 0 [h, l]).map (BitVec.ofNat 8)
  | _ => none

/-- The bytes of a string after its opening quote: `\xNN` is the byte 0xNN, and no other escape exists (R100). R100 does
not say what any other backslash is: here it is an error, and the line is no line, not the ordinary byte 0x5C (DESIGN
CHOICE, log 17). -/
def readString : List Char → Option (List Byte)
  | ['"'] => some []
  | '"' :: _ => none
  | '\\' :: 'x' :: h :: l :: cs =>
    match readDigits 16 0 [h, l], readString cs with
    | some b, some bs => some (BitVec.ofNat 8 b :: bs)
    | _, _ => none
  | '\\' :: _ => none
  | c :: cs =>
    match readString cs with
    | some bs => if c.toNat < 128 then some (charByte c :: bs) else none
    | none => none
  | [] => none

/-- A string operand `"s"` (R100). -/
def readText : List Char → Option (List Byte)
  | '"' :: cs => readString cs
  | _ => none

/-- The operand of TONE (R100): `0x` and eight hexadecimal digits are the pattern itself; otherwise a decimal number,
digits with an optional fraction (DESIGN CHOICE, log 17). -/
def readTone (cs : List Char) : Option HostLine :=
  match cs with
  | '0' :: 'x' :: ds => if ds.length = 8 then (readDigits 16 0 ds).map fun n => .toneBits (BitVec.ofNat 32 n) else none
  | _ =>
    let whole := cs.takeWhile (· != '.')
    match cs.dropWhile (· != '.') with
    | [] => if whole.isEmpty then none else (readDigits 10 0 whole).map fun n => .toneDecimal n 1
    | _ :: frac =>
      if whole.isEmpty || frac.isEmpty then none
      else (readDigits 10 0 (whole ++ frac)).map fun n => .toneDecimal n (10 ^ frac.length)

/-- A register name (R32, R99), given in upper case. -/
def readReg (w : List Char) : Option Reg :=
  if w = "CTRL".toList then some .ctrl
  else if w = "STATUS".toList then some .status
  else if w = "ERRFLAGS".toList then some .errflags
  else if w = "CMD".toList then some .cmd
  else if w = "FREQ".toList then some .freq
  else if w = "RES_FREQ".toList then some .resFreq
  else if w = "RES_NOTE".toList then some .resNote
  else if w = "CH_DIV".toList then some .chDiv
  else if w = "CH_TOP".toList then some .chTop
  else if w = "CH_LEVEL".toList then some .chLevel
  else none

/-- A line without operand. -/
def readPlain (m : List Char) : Option HostLine :=
  if m = "NOP".toList then some (.command .nop)
  else if m = "TOK_CLEAR".toList then some (.command .tokClear)
  else if m = "RESOLVE".toList then some (.command .resolve)
  else if m = "SET_TONE".toList then some (.command .setTone)
  else if m = "SILENCE".toList then some (.command .silence)
  else if m = "PLAY_TOKEN".toList then some (.command .playToken)
  else if m = "CLRERR".toList then some .clrErr
  else none

/-- A `WR` line's operands: the register before the comma, the value after it (R99). -/
def readWr (a : List Char) : Option HostLine :=
  match a.dropWhile (· != ',') with
  | [] => none
  | _ :: v =>
    match readReg (upperWord (trimBlanks (a.takeWhile (· != ',')))), readWord (trimBlanks v) with
    | some r, some w => some (.wr r w)
    | _, _ => none

/-- A line with an operand: mnemonic in upper case, operand text. -/
def readOperand (m a : List Char) : Option HostLine :=
  if m = "TOK_PUSH".toList then (readByte a).map fun b => .command (.tokPush b)
  else if m = "KEY_TONE".toList then (readByte a).map fun b => .command (.keyTone b)
  else if m = "WR".toList then readWr a
  else if m = "RD".toList then (readReg (upperWord a)).map .rd
  else if m = "CMD".toList then (readWord a).map .cmdWord
  else if m = "TOKEN".toList then (readText a).map .tokenText
  else if m = "PLAY".toList then (readText a).map .play
  else if m = "TONE".toList then readTone a
  else if m = "POLICY".toList then
    if upperWord a = "SILENCE".toList then some (.policy true)
    else if upperWord a = "KEEP".toList then some (.policy false)
    else none
  else if m = "CLOCK".toList then (readNumber a).map .clock
  else none

/-- What one line of text says: no operation (blank or comment only), a line, or nothing R99 and R100 give. -/
def readLine (text : List Char) : Option (List HostLine) :=
  let l := trimBlanks (stripComment false text)
  let m := upperWord (l.takeWhile fun c => !isBlank c)
  let a := trimBlanks (l.dropWhile fun c => !isBlank c)
  if l.isEmpty then some []
  else if a.isEmpty then (readPlain m).map fun x => [x]
  else (readOperand m a).map fun x => [x]

/-- A program in text form, a list of lines (R99). -/
def readProgram : List (List Char) → Option (List HostLine)
  | [] => some []
  | t :: ts =>
    match readLine t, readProgram ts with
    | some l, some ls => some (l ++ ls)
    | _, _ => none

end Sys2Proof.Machine
end

