-- ==== Sys2Proof/Safety.lean ====
section
/-! DEFINITION. The terms claims are stated in: the invariant of every reachable state (R36, R211), what a command may
report (R190, R196), and the relations for what cannot be observed (R45, R47). -/

namespace Sys2Proof.Machine

/-- The invariant of every reachable state: R36 items 1 to 7, R211's two, and the block held at its reset state while
the reset input is asserted (R230). -/
structure StateInv (s : State) : Prop where
  /-- R36 item 1. -/
  top_le : s.chTop.toNat ≤ 65535
  /-- R36 item 2. -/
  duty : s.chEn = true → s.chLevel.toNat = (s.chTop.toNat + 1) / 2
  /-- R36 item 3. -/
  divider : s.chDiv.toNat ∈ [1, 2, 4, 8, 16, 32, 64, 128, 256]
  /-- R36 item 4. -/
  pitch : s.resKind = .pitch → isPosFinite s.resFreq = true ∧ s.resFreq = freqFn s.resNote.toInt
  /-- R36 item 5. -/
  noPitch : s.resKind ≠ .pitch → s.resFreq = 0x00000000#32 ∧ s.resNote = 0x00000000#32
  /-- R36 item 6. -/
  cause : s.resKind = .invalid ↔ s.resCause ≠ .noCause
  /-- R36 item 7. -/
  tokLen_le : s.tokLen.toNat ≤ 31
  /-- R211: CTR ≤ CH_TOP. -/
  counter : s.ctr.toNat ≤ s.chTop.toNat
  /-- R211: PRESC < CH_DIV. -/
  prescale : s.presc.toNat < s.chDiv.toNat
  /-- R230: every piece of state has its reset value while reset is asserted, on the model's own field for the reset
  input (DESIGN CHOICE, log 10). TOKBUF is exempt: R231 leaves its bytes unspecified. -/
  heldInReset : s.inReset = true → s = { assertReset s with tokbuf := s.tokbuf }

/-- The error codes a command can leave in LAST_ERR (R190, R196). -/
def allowedErr : Instr → List ErrCode
  | .nop => [.ok]
  | .tokClear => [.ok]
  | .tokPush _ => [.ok]
  | .resolve => [.ok, .tokenInvalid]
  | .setTone => [.ok, .badFreq]
  | .silence => [.ok]
  | .playToken => [.ok, .tokenInvalid]
  | .keyTone _ => [.ok]

/-- The shape of a note token (R115, R117 to R119): between any whitespace, a note letter in either case, an optional
accidental, an optional minus and at least one digit. -/
def NoteShape (t : List Byte) : Prop :=
  ∃ (ws ws' acc sign ds : List Byte) (c : Byte),
    t = ws ++ (c :: (acc ++ sign ++ ds)) ++ ws' ∧
    (∀ x ∈ ws, isSpace x = true) ∧ (∀ x ∈ ws', isSpace x = true) ∧
    upper c ∈ [0x43#8, 0x44#8, 0x45#8, 0x46#8, 0x47#8, 0x41#8, 0x42#8] ∧
    acc ∈ [[], [0x23#8], [0x62#8], [0x42#8]] ∧ sign ∈ [[], [0x2D#8]] ∧
    ds ≠ [] ∧ ∀ d ∈ ds, 0x30 ≤ d.toNat ∧ d.toNat ≤ 0x39

/-- The two states differ at most in bytes of TOKBUF at indices from TOK_LEN on (R45). -/
def SameLiveToken (s t : State) : Prop := t = { s with tokbuf := t.tokbuf } ∧ token t = token s

/-- What the host has read, without the observations of TONE_OUT (R9). -/
def readValues : List Observation → List (Nat × Word)
  | [] => []
  | .readValue a v :: os => (a, v) :: readValues os
  | .toneOut _ :: os => readValues os

/-- The two states differ at most in CTR, PRESC and the observed levels of TONE_OUT (R47). -/
def SameForReader (s t : State) : Prop :=
  t = { s with ctr := t.ctr, presc := t.presc, observed := t.observed } ∧
    readValues t.observed = readValues s.observed

/-- Two steps end alike: in related next states, or with the same fault or refusal. -/
def SameOutcome (R : State → State → Prop) : Host.Outcome State Fault Refusal → Host.Outcome State Fault Refusal → Prop
  | .next s, .next t => R s t
  | .fault a, .fault b => a = b
  | .refused a, .refused b => a = b
  | _, _ => False

end Sys2Proof.Machine
end

