-- ==== Sys2Proof/WellFormed.lean ====
section
/-! DEFINITION. Which terms and which CMD words are well formed. The operands of a command are bytes by their type, so
every `Instr` is well formed; the checks of this hardware are those on a CMD word (R95), stated here from the rule's
three clauses and independently of the decoder. -/

namespace Sys2Proof

/-- Every term of `Instr` is a command the table can encode: a byte operand admits all 256 values (R92, R112, R175). -/
def Instr.wellFormed : Instr → Bool
  | .nop => true
  | .tokClear => true
  | .tokPush _ => true
  | .resolve => true
  | .setTone => true
  | .silence => true
  | .playToken => true
  | .keyTone _ => true

/-- R95 clause 1 does not hold: the RSV field is zero (R93). -/
def rsvClear (w : Word) : Bool := w.extractLsb' 16 16 == 0#16

/-- R95 clause 2 does not hold: the command number is assigned (R91). -/
def opcAssigned (w : Word) : Bool := (w.extractLsb' 0 8).toNat < 0x08

/-- R95 clause 3 does not hold: ARG is zero unless the command takes a byte (R92). -/
def argAllowed (w : Word) : Bool :=
  w.extractLsb' 0 8 == 0x02#8 || w.extractLsb' 0 8 == 0x07#8 || w.extractLsb' 8 8 == 0#8

/-- A legal CMD word: none of R95's three clauses holds. -/
def legalWord (w : Word) : Bool := rsvClear w && opcAssigned w && argAllowed w

end Sys2Proof
end

