-- ==== Sys2Proof/Certificates/Slice0/Obligations.lean ====
section
/-! DEFINITION. The statements for the provers, from the numbered rules of spec/. -/

open Sys2Proof Sys2Proof.Machine

/-! ## Encoding -/

/-- R90 to R95: the decoder and the encoder agree in both directions: every word has at most one meaning, and no bit of
a command's word is dropped. -/
def Obligations.DecodeEncodeAgree : Prop :=
  ∀ (w : Word) (i : Instr), decode w = .ok i ↔ w = encode i

/-- R94: "a word w encodes it when (w AND mask) = match", row by row, with the byte operand read from ARG. -/
def Obligations.TableMatchMask : Prop :=
  ∀ w : Word,
    (w &&& 0xFFFFFFFF#32 = 0x00000000#32 ↔ decode w = .ok .nop) ∧
    (w &&& 0xFFFFFFFF#32 = 0x00000001#32 ↔ decode w = .ok .tokClear) ∧
    (w &&& 0xFFFF00FF#32 = 0x00000002#32 ↔ decode w = .ok (.tokPush (w.extractLsb' 8 8))) ∧
    (w &&& 0xFFFFFFFF#32 = 0x00000003#32 ↔ decode w = .ok .resolve) ∧
    (w &&& 0xFFFFFFFF#32 = 0x00000004#32 ↔ decode w = .ok .setTone) ∧
    (w &&& 0xFFFFFFFF#32 = 0x00000005#32 ↔ decode w = .ok .silence) ∧
    (w &&& 0xFFFFFFFF#32 = 0x00000006#32 ↔ decode w = .ok .playToken) ∧
    (w &&& 0xFFFF00FF#32 = 0x00000007#32 ↔ decode w = .ok (.keyTone (w.extractLsb' 8 8)))

/-- A few CMD words written out from R94 decode to the command they stand for, and four illegal ones to none. -/
def Obligations.SpecWordsDecode : Prop :=
  decode 0x00000000#32 = .ok .nop ∧
  decode 0x00000001#32 = .ok .tokClear ∧
  decode 0x00003502#32 = .ok (.tokPush 0x35#8) ∧
  decode 0x00000003#32 = .ok .resolve ∧
  decode 0x00000004#32 = .ok .setTone ∧
  decode 0x00000005#32 = .ok .silence ∧
  decode 0x00000006#32 = .ok .playToken ∧
  decode 0x00004107#32 = .ok (.keyTone 0x41#8) ∧
  decode 0x80000002#32 = .error .rsvNonzero ∧
  decode 0x00000008#32 = .error .opcUnassigned ∧
  decode 0x00000103#32 = .error .argNonzero ∧
  decode 0x00000504#32 = .error .argNonzero

/-- R95, R191: a CMD word illegal by one of the three clauses, and no other, makes the step report ILLEGAL_CMD and
change nothing else; every other word runs its command. -/
def Obligations.IllegalWordReported : Prop :=
  ∀ (s : State) (w : Word) (rest : List Event),
    s.pending = .access .host (.write 0x0C 4 w) :: rest → s.inReset = false →
    let illegal : Prop := w.extractLsb' 16 16 ≠ 0#16 ∨ 0x08 ≤ (w.extractLsb' 0 8).toNat ∨
      (w.extractLsb' 0 8 ≠ 0x02#8 ∧ w.extractLsb' 0 8 ≠ 0x07#8 ∧ w.extractLsb' 8 8 ≠ 0#8)
    (illegal → step s = .next { s with pending := rest, lastErr := .illegalCmd, errflags := s.errflags ||| 0b001#3 }) ∧
    (¬illegal → ∃ i, decode w = .ok i ∧ step s = exec i { s with pending := rest })

/-! ## The register port -/

/-- R44, R76: a host write to CMD of a word that decodes to i is one step, exec of i, with the access taken off the list
of events to come. -/
def Obligations.StepRunsDecodedCommand : Prop :=
  ∀ (s : State) (w : Word) (i : Instr) (rest : List Event),
    s.pending = .access .host (.write 0x0C 4 w) :: rest → s.inReset = false → decode w = .ok i →
    step s = exec i { s with pending := rest }

/-- R71: an admitted read observes the register's value as R32 to R46 give it, and changes no state of the block. -/
def Obligations.ReadReturnsRegister : Prop :=
  ∀ (s : State) (a : Nat) (rest : List Event),
    s.pending = .access .host (.read a 4) :: rest → s.inReset = false → a % 4 = 0 → a ≤ 0x3C →
    ∃ v : Word,
      step s = .next { s with pending := rest, observed := .readValue a v :: s.observed } ∧
      (a = 0x00 → v.toNat = s.errSilence.toNat) ∧
      (a = 0x04 → v.toNat = s.chEn.toNat + 2 * (kindCode s.resKind).toNat + 8 * (causeCode s.resCause).toNat +
        256 * s.tokLen.toNat + 65536 * (errCode s.lastErr).toNat) ∧
      (a = 0x08 → v.toNat = s.errflags.toNat) ∧
      (a = 0x0C → v = 0x00000000#32) ∧
      (a = 0x10 → v = s.freq) ∧
      (a = 0x14 → v = s.resFreq) ∧
      (a = 0x18 → v = s.resNote) ∧
      (a = 0x1C → v.toNat = s.chDiv.toNat) ∧
      (a = 0x20 → v.toNat = s.chTop.toNat) ∧
      (a = 0x24 → v.toNat = s.chLevel.toNat) ∧
      (0x28 ≤ a → v = 0x00000000#32)

/-- R34: the fields of STATUS and their codes, the reserved bits reading as 0. -/
def Obligations.StatusFields : Prop :=
  ∀ s : State,
    (statusWord s).extractLsb' 0 1 = (if s.chEn then 1#1 else 0#1) ∧
    (statusWord s).extractLsb' 1 2 =
      (match s.resKind with | .noResult => 0#2 | .rest => 1#2 | .pitch => 2#2 | .invalid => 3#2) ∧
    (statusWord s).extractLsb' 3 2 =
      (match s.resCause with | .noCause => 0#2 | .badLetter => 1#2 | .badOctave => 2#2 | .range => 3#2) ∧
    (statusWord s).extractLsb' 5 3 = 0#3 ∧
    (statusWord s).extractLsb' 8 5 = s.tokLen ∧
    (statusWord s).extractLsb' 13 3 = 0#3 ∧
    (statusWord s).extractLsb' 16 4 =
      (match s.lastErr with | .ok => 0#4 | .illegalCmd => 1#4 | .badFreq => 2#4 | .tokenInvalid => 3#4) ∧
    (statusWord s).extractLsb' 20 12 = 0#12

/-- R72: the effect of an admitted write, offset by offset; only the write to CMD runs a command. -/
def Obligations.WriteEffects : Prop :=
  ∀ (s : State) (a : Nat) (v : Word) (rest : List Event),
    s.pending = .access .host (.write a 4 v) :: rest → s.inReset = false → a % 4 = 0 → a ≤ 0x3C →
    (a = 0x00 → step s = .next { s with pending := rest, errSilence := v.getLsbD 0 }) ∧
    (a = 0x08 → ∃ f : BitVec 3, step s = .next { s with pending := rest, errflags := f } ∧
      ∀ j : Nat, j < 3 → f.getLsbD j = (s.errflags.getLsbD j && !v.getLsbD j)) ∧
    (a = 0x0C → ∀ i, decode v = .ok i → step s = exec i { s with pending := rest }) ∧
    (a = 0x10 → step s = .next { s with pending := rest, freq := v }) ∧
    (a = 0x04 ∨ 0x14 ≤ a → step s = .next { s with pending := rest })

/-- R73, R75: with reset released the port admits exactly the 32-bit accesses at a multiple of 4 in 0x00..0x3C, each of
which completes; every other access is BusError(a). -/
def Obligations.PortAdmits : Prop :=
  ∀ (s : State) (a size : Nat) (v : Word) (rest : List Event), s.inReset = false →
    ∀ acc : Access, (acc = .read a size ∨ acc = .write a size v) → s.pending = .access .host acc :: rest →
    (size = 4 ∧ a % 4 = 0 ∧ a ≤ 0x3C → ∃ t, step s = .next t) ∧
    (¬(size = 4 ∧ a % 4 = 0 ∧ a ≤ 0x3C) → step s = .fault (.busError a))

/-- R221: an access by a second requester is refused by name. That the refusal covers also accesses the port does not
admit and those made while reset is asserted, before their BusError, is the model's choice (DESIGN CHOICE, log 9). -/
def Obligations.SecondRequesterRefused : Prop :=
  ∀ (s : State) (acc : Access) (rest : List Event),
    s.pending = .access .second acc :: rest → step s = .refused .secondRequester

/-! ## Reset -/

/-- R231: the state after reset, every value the spec gives. -/
def Obligations.ResetValues : Prop :=
  regval State.reset 0x00 = 0x00000001#32 ∧ regval State.reset 0x04 = 0x00000000#32 ∧
  regval State.reset 0x08 = 0x00000000#32 ∧ regval State.reset 0x10 = 0x00000000#32 ∧
  regval State.reset 0x14 = 0x00000000#32 ∧ regval State.reset 0x18 = 0x00000000#32 ∧
  regval State.reset 0x1C = 0x00000001#32 ∧ regval State.reset 0x20 = 0x00000000#32 ∧
  regval State.reset 0x24 = 0x00000000#32 ∧ State.reset.ctr = 0#16 ∧ State.reset.presc = 0#8 ∧
  toneOut State.reset = false

/-- R230: asserting reset gives every piece of state but TOKBUF, which R231 leaves unspecified, the value it has in
State.reset; until it is released every host access is a BusError; releasing it changes nothing else. The reset input is
held as a field of the model's own (log 10). -/
def Obligations.ResetInput : Prop :=
  ∀ (s : State) (rest : List Event),
    (s.pending = .resetAssert :: rest →
      ∃ t, step s = .next t ∧
        t = { State.reset with inReset := true, pending := rest, observed := s.observed, tokbuf := t.tokbuf }) ∧
    (s.inReset = true → ∀ acc, s.pending = .access .host acc :: rest →
      step s = .fault (.busError (accessOffset acc))) ∧
    (s.pending = .resetRelease :: rest → step s = .next { s with inReset := false, pending := rest })

/-! ## The timer channel -/

/-- R211: one clock edge. A disabled channel holds its counter; an enabled one advances PRESC through 0..CH_DIV−1 and
CTR, once per CH_DIV clocks, through 0..CH_TOP; both stay in range. That the level observed at an edge (R9) is the one
after the timer has stepped is the model's choice (DESIGN CHOICE, log 3). -/
def Obligations.ClockEdge : Prop :=
  ∀ (s : State) (rest : List Event), StateInv s → s.pending = .clockEdge :: rest →
    ∃ t, step s = .next t ∧
      t = { s with ctr := t.ctr, presc := t.presc, pending := rest, observed := .toneOut (toneOut t) :: s.observed } ∧
      (s.chEn = false → t.ctr = s.ctr ∧ t.presc = s.presc) ∧
      (s.chEn = true → s.presc.toNat < s.chDiv.toNat - 1 → t.ctr = s.ctr ∧ t.presc.toNat = s.presc.toNat + 1) ∧
      (s.chEn = true → s.presc.toNat = s.chDiv.toNat - 1 → t.presc = 0#8 ∧
        t.ctr.toNat = if s.ctr = s.chTop then 0 else s.ctr.toNat + 1) ∧
      t.ctr.toNat ≤ t.chTop.toNat ∧ t.presc.toNat < t.chDiv.toNat

/-- The model's choice (log 1), within R214 and R232: when nothing else is to come, the next event is a clock edge. -/
def Obligations.IdleIsClockEdge : Prop :=
  ∀ s : State, s.pending = [] → step s = step { s with pending := [.clockEdge] }

/-- R215, R247: over k clock edges with no command between, from any phase of an enabled channel, TONE_OUT is high for
CH_DIV·CH_LEVEL clocks of each CH_DIV·(CH_TOP+1), and nothing but the counter and the observations changes. -/
def Obligations.Waveform : Prop :=
  ∀ (s : State) (k : Nat) (rest : List Event), StateInv s → s.chEn = true →
    ∃ t : State,
      Host.Core.run core k ({ s with pending := List.replicate k .clockEdge ++ rest } : State) = .next t ∧
      toneOut t = decide ((s.chDiv.toNat * s.ctr.toNat + s.presc.toNat + k) % (s.chDiv.toNat * (s.chTop.toNat + 1)) <
        s.chDiv.toNat * s.chLevel.toNat) ∧
      t = { s with ctr := t.ctr, presc := t.presc, pending := rest, observed := t.observed }

/-- R213, R47: a disabled channel holds CTR and PRESC over any number of clock edges, with TONE_OUT low. -/
def Obligations.DisabledChannelHolds : Prop :=
  ∀ (s : State) (k : Nat) (rest : List Event), s.chEn = false →
    Host.Core.run core k ({ s with pending := List.replicate k .clockEdge ++ rest } : State) =
      .next ({ s with pending := rest, observed := List.replicate k (.toneOut false) ++ s.observed } : State)

/-- R212: TONE_OUT is high exactly while CH_EN = 1 and CTR < CH_LEVEL; a disabled channel drives it low. -/
def Obligations.OutputFunction : Prop :=
  ∀ s : State, (toneOut s = true ↔ s.chEn = true ∧ s.ctr.toNat < s.chLevel.toNat) ∧
    (s.chEn = false → toneOut s = false)

/-- R216: the output at period 0, at period 65535 and at even periods, in every state with the invariant. -/
def Obligations.OutputCorners : Prop :=
  ∀ s : State, StateInv s → s.chEn = true →
    (s.chTop = 0#16 → s.chLevel = 0#17 ∧ toneOut s = false) ∧
    (s.chTop = 65535#16 → s.chLevel = 32768#17) ∧
    (s.chTop.toNat % 2 = 0 → s.chLevel.toNat + 1 = s.chTop.toNat + 1 - s.chLevel.toNat)

/-! ## The token buffer -/

/-- R171: NOP clears LAST_ERR and nothing else. -/
def Obligations.NopEffect : Prop :=
  encode .nop = 0x00000000#32 ∧ ∀ s : State, exec .nop s = .next { s with lastErr := .ok }

/-- R111: TOK_CLEAR empties the token and clears LAST_ERR; TOKBUF's bytes and the results are kept. -/
def Obligations.TokClearEffect : Prop :=
  encode .tokClear = 0x00000001#32 ∧
  ∀ s : State, exec .tokClear s = .next { s with tokLen := 0#5, lastErr := .ok } ∧
    token { s with tokLen := 0#5, lastErr := .ok } = []

/-- R112: TOK_PUSH appends its byte at index TOK_LEN while TOK_LEN < 31 and drops it otherwise; in both cases LAST_ERR
becomes 0 and nothing else changes. -/
def Obligations.TokPushEffect : Prop :=
  ∀ (b : Byte) (s : State),
    encode (.tokPush b) = 0x00000002#32 ||| (b.setWidth 32 <<< 8) ∧
    ∃ t, exec (.tokPush b) s = .next t ∧
      t = { s with tokLen := t.tokLen, tokbuf := t.tokbuf, lastErr := .ok } ∧
      token t = (token s ++ [b]).take 31 ∧
      (s.tokLen.toNat < 31 → t.tokLen.toNat = s.tokLen.toNat + 1) ∧
      (s.tokLen.toNat = 31 → t.tokLen = s.tokLen ∧ t.tokbuf = s.tokbuf) ∧
      (∀ j : Nat, j ≠ s.tokLen.toNat → t.tokbuf[j]? = s.tokbuf[j]?)

/-- R113: with reset released, after TOK_CLEAR and any sequence of TOK_PUSH commands written to CMD, the buffer holds exactly the first 31
bytes, and nothing but the token and LAST_ERR has changed. Trimming comes after: "A4" behind 30 spaces has lost its '4'
and is BAD_OCTAVE, behind 29 spaces it is A4. -/
def Obligations.TruncationToThirtyOne : Prop :=
  (resolve ((List.replicate 30 0x20#8 ++ [0x41#8, 0x34#8]).take 31) = ⟨.invalid, .badOctave, 0, 0x00000000#32⟩) ∧
  (resolve ((List.replicate 29 0x20#8 ++ [0x41#8, 0x34#8]).take 31) = ⟨.pitch, .noCause, 69, 0x43DC0000#32⟩) ∧
  ∀ (s : State) (cs : List Byte) (rest : List Event), s.inReset = false →
    ∃ t : State,
      Host.Core.run core (cs.length + 1)
        ({ s with pending := tokenEvents cs ++ rest } : State) = .next t ∧
      token t = cs.take 31 ∧ t.tokLen.toNat = min cs.length 31 ∧
      t = { s with tokLen := t.tokLen, tokbuf := t.tokbuf, lastErr := .ok, pending := rest }

/-- R45: no step reads a byte of TOKBUF at an index from TOK_LEN on: states that differ only there step alike, and what
the host reads and hears is the same. -/
def Obligations.DeadTokenBytesUnread : Prop :=
  ∀ s t : State, SameLiveToken s t → SameOutcome SameLiveToken (step s) (step t)

/-! ## The resolver -/

/-- R115: trim removes whitespace from both ends, leaves no whitespace at either end, and keeps what is between. -/
def Obligations.TrimSpec : Prop :=
  ∀ t : List Byte,
    (∃ pre post, t = pre ++ trim t ++ post ∧ (∀ c ∈ pre, isSpace c = true) ∧ (∀ c ∈ post, isSpace c = true)) ∧
    (∀ c, (trim t).head? = some c → isSpace c = false) ∧
    (∀ c, (trim t).getLast? = some c → isSpace c = false) ∧
    (∀ c : Byte, isSpace c = true ↔ c = 0x20#8 ∨ c = 0x09#8 ∨ c = 0x0A#8 ∨ c = 0x0B#8 ∨ c = 0x0C#8 ∨ c = 0x0D#8)

/-- R116: a token is a rest exactly when its trimmed bytes equal "R" or "REST" without regard to case, where upper maps
0x61..0x7A to 0x41..0x5A and leaves every other byte as it is (R15). -/
def Obligations.RestTokens : Prop :=
  (∀ (fn : Int → Word) (t : List Byte),
    (resolveWith fn t).kind = .rest ↔
      (trim t).map upper = [0x52#8] ∨ (trim t).map upper = [0x52#8, 0x45#8, 0x53#8, 0x54#8]) ∧
  ∀ c : Byte,
    (0x61 ≤ c.toNat ∧ c.toNat ≤ 0x7A → (upper c).toNat + 0x20 = c.toNat) ∧
    (c.toNat < 0x61 ∨ 0x7A < c.toNat → upper c = c)

/-- R117: BAD_LETTER exactly for a token that is no rest and has no first byte or a first byte that is not a note letter
in either case. -/
def Obligations.BadLetterTokens : Prop :=
  ∀ (fn : Int → Word) (t : List Byte),
    (resolveWith fn t).cause = .badLetter ↔
      (resolveWith fn t).kind ≠ .rest ∧
        ∀ c, (trim t).head? = some c →
          upper c ∉ [0x43#8, 0x44#8, 0x45#8, 0x46#8, 0x47#8, 0x41#8, 0x42#8]

/-- R117 to R120, R123: a note letter, an optional accidental, an optional minus and at least one digit, between any
whitespace, resolve to the note number (octave + 1)·12 + semitone + accidental, a pitch when its frequency is neither
+0.0 nor +∞ and RANGE otherwise. For every FREQ_FN (R122). -/
def Obligations.NoteTokensResolve : Prop :=
  ∀ (fn : Int → Word) (ws ws' acc ds : List Byte) (c : Byte) (semi : Nat) (a : Int) (neg : Bool),
    (∀ x ∈ ws, isSpace x = true) → (∀ x ∈ ws', isSpace x = true) →
    (upper c, semi) ∈ [(0x43#8, 0), (0x44#8, 2), (0x45#8, 4), (0x46#8, 5), (0x47#8, 7), (0x41#8, 9), (0x42#8, 11)] →
    (acc, a) ∈ [([], 0), ([0x23#8], 1), ([0x62#8], -1), ([0x42#8], -1)] →
    ds ≠ [] → (∀ d ∈ ds, 0x30 ≤ d.toNat ∧ d.toNat ≤ 0x39) →
    let value : Nat := Nat.ofDigits 10 (ds.reverse.map fun d => d.toNat - 0x30)
    let oct : Int := if neg then -(value : Int) else value
    let n : Int := (oct + 1) * 12 + semi + a
    resolveWith fn (ws ++ (c :: (acc ++ (if neg then [0x2D#8] else []) ++ ds)) ++ ws') =
      if fn n = 0x00000000#32 ∨ fn n = 0x7F800000#32 then ⟨.invalid, .range, 0, 0x00000000#32⟩
      else ⟨.pitch, .noCause, n, fn n⟩

/-- R115, R117 to R119, R124: a token is a pitch or out of range exactly when it has the shape of a note token, and
BAD_OCTAVE exactly when it is no rest, its first byte after trimming is a note letter in either case, and it has not that
shape. -/
def Obligations.OnlyNoteTokensResolve : Prop :=
  ∀ (fn : Int → Word) (t : List Byte),
    (((resolveWith fn t).kind = .pitch ∨ (resolveWith fn t).cause = .range) ↔ NoteShape t) ∧
    ((resolveWith fn t).cause = .badOctave ↔
      (resolveWith fn t).kind ≠ .rest ∧
      (∃ c, (trim t).head? = some c ∧ upper c ∈ [0x43#8, 0x44#8, 0x45#8, 0x46#8, 0x47#8, 0x41#8, 0x42#8]) ∧
      ¬NoteShape t)

/-- R127 item 4: resolve does not depend on the case of any byte. -/
def Obligations.CaseInsensitive : Prop :=
  ∀ (fn : Int → Word) (t : List Byte), resolveWith fn (t.map upper) = resolveWith fn t

/-! ## The frequency function -/

/-- R13: `rne32` of a positive real is the nearest binary32, ties to even fraction; +∞ from 2^128·(1 − 2^−25) on and +0.0
up to 2^−150. -/
def Obligations.Rne32Correct : Prop :=
  ∀ (x : ℝ) (cmp : Nat → Int → Ordering), 0 < x →
    (∀ (m : Nat) (e : Int), (cmp m e = .lt ↔ (m : ℝ) * (2 : ℝ) ^ e < x) ∧ (cmp m e = .eq ↔ (m : ℝ) * (2 : ℝ) ^ e = x)) →
    ((2 : ℝ) ^ (128 : ℤ) * (1 - (2 : ℝ) ^ (-25 : ℤ)) ≤ x → rne32 cmp = 0x7F800000#32) ∧
    (x ≤ (2 : ℝ) ^ (-150 : ℤ) → rne32 cmp = 0x00000000#32) ∧
    ((2 : ℝ) ^ (-150 : ℤ) < x → x < (2 : ℝ) ^ (128 : ℤ) * (1 - (2 : ℝ) ^ (-25 : ℤ)) →
      isPosFinite (rne32 cmp) = true ∧
      ∀ b : Word, (b = 0x00000000#32 ∨ isPosFinite b = true) → b ≠ rne32 cmp →
        |((f32Val (rne32 cmp) : ℚ) : ℝ) - x| < |((f32Val b : ℚ) : ℝ) - x| ∨
        (|((f32Val (rne32 cmp) : ℚ) : ℝ) - x| = |((f32Val b : ℚ) : ℝ) - x| ∧ f32Frac (rne32 cmp) % 2 = 0))

/-- R121: FREQ_FN_ref(n) is the correctly rounded binary32 of 440·2^((n−69)/12), for every note number. -/
def Obligations.FreqFnCorrectlyRounded : Prop :=
  ∀ n : ℤ,
    let x : ℝ := 440 * (2 : ℝ) ^ (((n : ℝ) - 69) / 12)
    ((2 : ℝ) ^ (128 : ℤ) * (1 - (2 : ℝ) ^ (-25 : ℤ)) ≤ x → freqFnRef n = 0x7F800000#32) ∧
    (x ≤ (2 : ℝ) ^ (-150 : ℤ) → freqFnRef n = 0x00000000#32) ∧
    ((2 : ℝ) ^ (-150 : ℤ) < x → x < (2 : ℝ) ^ (128 : ℤ) * (1 - (2 : ℝ) ^ (-25 : ℤ)) →
      isPosFinite (freqFnRef n) = true ∧
      ∀ b : Word, (b = 0x00000000#32 ∨ isPosFinite b = true) → b ≠ freqFnRef n →
        |((f32Val (freqFnRef n) : ℚ) : ℝ) - x| < |((f32Val b : ℚ) : ℝ) - x| ∨
        (|((f32Val (freqFnRef n) : ℚ) : ℝ) - x| = |((f32Val b : ℚ) : ℝ) - x| ∧ f32Frac (freqFnRef n) % 2 = 0))

/-- R123: under the reference the result is +0.0 exactly below −1836 and +∞ exactly above 1499, positive and finite in
between; and the four values the rule gives. -/
def Obligations.RangeBounds : Prop :=
  (∀ n : Int,
    (freqFnRef n = 0x00000000#32 ↔ n < -1836) ∧
    (freqFnRef n = 0x7F800000#32 ↔ 1499 < n) ∧
    (isPosFinite (freqFnRef n) = true ↔ -1836 ≤ n ∧ n ≤ 1499)) ∧
  freqFnRef (-1836) = 0x00000001#32 ∧ freqFnRef (-1837) = 0x00000000#32 ∧
  freqFnRef 1499 = 0x7F76F110#32 ∧ freqFnRef 1500 = 0x7F800000#32

/-- R122, on the model's FREQ_FN (log 6): (a) is its type, a function of n alone; (b) FREQ_FN(69) = 440.0; (c)
non-decreasing in n; (d) +0.0, +∞ or positive finite, never NaN or negative; (e) within 0.01 Hz in the audio range. That
range is read as every note of §8 (octaves −1..9, n = −1..132, R127 item 5) and every note in its (20, 20000) Hz, which
together are n = −1..135 (DEDUCED, log 21). -/
def Obligations.FreqFnProperties : Prop :=
  freqFn 69 = 0x43DC0000#32 ∧
  (∀ m n : Int, m ≤ n → (freqFn m).toNat ≤ (freqFn n).toNat) ∧
  (∀ n : Int, freqFn n = 0x00000000#32 ∨ freqFn n = 0x7F800000#32 ∨
    (isPosFinite (freqFn n) = true ∧ isNaN (freqFn n) = false ∧ 0 < f32Val (freqFn n))) ∧
  (∀ n : ℤ, -1 ≤ n → n ≤ 135 →
    |((f32Val (freqFn n) : ℚ) : ℝ) - 440 * (2 : ℝ) ^ (((n : ℝ) - 69) / 12)| ≤ 1 / 100)

/-- R127 items 2 and 3: an octave doubles the frequency exactly inside the normal range, and the octaves of A are exact. -/
def Obligations.OctaveDoubles : Prop :=
  (∀ n : Int, -1548 ≤ n → n + 12 ≤ 1487 → f32Val (freqFnRef (n + 12)) = 2 * f32Val (freqFnRef n)) ∧
  (∀ k : Int, -134 ≤ k → k ≤ 119 → f32Val (freqFnRef (69 + 12 * k)) = 440 * (2 : ℚ) ^ k)

/-! ## RESOLVE -/

/-- R125, R126: RESOLVE writes the resolution of the token into the result registers, with LAST_ERR and the sticky bit
for an invalid token; the token, CTRL, FREQ, the channel and the counter are unchanged. -/
def Obligations.ResolveEffect : Prop :=
  encode .resolve = 0x00000003#32 ∧
  ∀ s : State,
    ((resolve (token s)).kind = .pitch →
      exec .resolve s = .next
        { s with
          resKind := .pitch, resCause := .noCause, resNote := BitVec.ofInt 32 (resolve (token s)).note
          resFreq := (resolve (token s)).freq, lastErr := .ok }) ∧
    ((resolve (token s)).kind = .rest →
      exec .resolve s = .next
        { s with
          resKind := .rest, resCause := .noCause, resNote := 0x00000000#32
          resFreq := 0x00000000#32, lastErr := .ok }) ∧
    ((resolve (token s)).kind = .invalid →
      exec .resolve s = .next
        { s with
          resKind := .invalid, resCause := (resolve (token s)).cause, resNote := 0x00000000#32
          resFreq := 0x00000000#32, lastErr := .tokenInvalid, errflags := s.errflags ||| 0b100#3 }) ∧
    (resolve (token s)).kind ≠ .noResult

/-! ## The Tone Driver -/

/-- R143: the candidate is the exact round_half_up(SYS_CLK_HZ / (d·val(b))) − 1. -/
def Obligations.CandidateExact : Prop :=
  ∀ (clk d : Nat) (b : Word), 0 < d → isPosFinite b = true →
    cand clk d b = ⌊(clk : ℚ) / ((d : ℚ) * f32Val b) + 1 / 2⌋ - 1

/-- R144, R145, R146: the search gives the first divider of 1, 2, 4, …, 256 whose candidate is in 0..65535, with that
candidate, and (256, 65535) when none is. -/
def Obligations.SearchFirstFit : Prop :=
  ∀ (clk : Nat) (b : Word),
    (∃ k : Nat, k ≤ 8 ∧ 0 ≤ cand clk (2 ^ k) b ∧ cand clk (2 ^ k) b ≤ 65535 ∧
      (∀ j : Nat, j < k → ¬(0 ≤ cand clk (2 ^ j) b ∧ cand clk (2 ^ j) b ≤ 65535)) ∧
      search clk b = (2 ^ k, (cand clk (2 ^ k) b).toNat)) ∨
    ((∀ j : Nat, j ≤ 8 → ¬(0 ≤ cand clk (2 ^ j) b ∧ cand clk (2 ^ j) b ≤ 65535)) ∧ search clk b = (256, 65535))

/-- R151 items 1 to 3: the clamp is taken exactly when f > 2S or f ≤ S / 16777344; otherwise the divider is 2^k for the
least k in 0..8 with f > S / (2^k · 65536.5), the period is round_half_up(S/(d f)) − 1, and it is at least 32767 when
k ≥ 1. -/
def Obligations.WhichDivider : Prop :=
  ∀ (clk : Nat) (b : Word), 0 < clk → isPosFinite b = true →
    ((∀ j : Nat, j ≤ 8 → ¬(0 ≤ cand clk (2 ^ j) b ∧ cand clk (2 ^ j) b ≤ 65535)) ↔
      2 * (clk : ℚ) < f32Val b ∨ f32Val b ≤ (clk : ℚ) / 16777344) ∧
    (f32Val b ≤ 2 * (clk : ℚ) → (clk : ℚ) / 16777344 < f32Val b →
      ∃ k : Nat, k ≤ 8 ∧ (clk : ℚ) / (2 ^ k * (131073 / 2)) < f32Val b ∧
        (∀ j : Nat, j < k → f32Val b ≤ (clk : ℚ) / (2 ^ j * (131073 / 2))) ∧
        search clk b = (2 ^ k, (⌊(clk : ℚ) / (2 ^ k * f32Val b) + 1 / 2⌋ - 1).toNat) ∧
        (1 ≤ k → 32767 ≤ (search clk b).2) ∧ (search clk b).2 ≤ 65535)

/-- R152: outside the clamp the decoded frequency S/(d·(p+1)) is within 1/(2(p+1)) of f, relatively. -/
def Obligations.DecodedFrequencyError : Prop :=
  ∀ (clk : Nat) (b : Word), 0 < clk → isPosFinite b = true →
    f32Val b ≤ 2 * (clk : ℚ) → (clk : ℚ) / 16777344 < f32Val b →
    |(clk : ℚ) / ((search clk b).1 * ((search clk b).2 + 1)) / f32Val b - 1| ≤ 1 / (2 * ((search clk b).2 + 1))

/-- R147, R148: programming writes divider, period, duty level and CH_EN together; CTR and PRESC restart at 0 unless the
enabled channel runs the same program already; nothing else changes. For every program R144 and R146 can give. -/
def Obligations.ProgramEffect : Prop :=
  ∀ (d p : Nat) (s : State), d ≤ 256 → p ≤ 65535 →
    ∃ t, program d p s = t ∧
      t.chDiv.toNat = d ∧ t.chTop.toNat = p ∧ t.chLevel.toNat = (p + 1) / 2 ∧ t.chEn = true ∧
      t = { s with chDiv := t.chDiv, chTop := t.chTop, chLevel := t.chLevel, chEn := t.chEn, ctr := t.ctr, presc := t.presc } ∧
      (s.chEn = true ∧ s.chDiv.toNat = d ∧ s.chTop.toNat = p ∧ s.chLevel.toNat = (p + 1) / 2 →
        t.ctr = s.ctr ∧ t.presc = s.presc) ∧
      (¬(s.chEn = true ∧ s.chDiv.toNat = d ∧ s.chTop.toNat = p ∧ s.chLevel.toNat = (p + 1) / 2) →
        t.ctr = 0#16 ∧ t.presc = 0#8)

/-- R141, R149: SET_TONE reports BAD_FREQ for NaN and +∞ and changes nothing else; silences for ±0.0, negative values and
−∞; searches and programs for every positive finite pattern. -/
def Obligations.SetToneEffect : Prop :=
  encode .setTone = 0x00000004#32 ∧
  ∀ s : State,
    ((s.freq.extractLsb' 23 8 = 0xFF#8 ∧ s.freq.extractLsb' 0 23 ≠ 0#23) ∨ s.freq = 0x7F800000#32 →
      exec .setTone s = .next { s with lastErr := .badFreq, errflags := s.errflags ||| 0b010#3 }) ∧
    (s.freq = 0x00000000#32 ∨ (0x80000000 ≤ s.freq.toNat ∧ s.freq.toNat ≤ 0xFF800000) →
      exec .setTone s = .next { s with chEn := false, lastErr := .ok }) ∧
    (0x00000001 ≤ s.freq.toNat ∧ s.freq.toNat ≤ 0x7F7FFFFF →
      exec .setTone s = .next { program (search Config.sysClkHz s.freq).1 (search Config.sysClkHz s.freq).2 s with lastErr := .ok })

/-- R152, R77: a second SET_TONE with the same FREQ changes nothing: the same registers, and the counter is not
restarted. -/
def Obligations.SetToneIdempotent : Prop :=
  ∀ s : State, ∃ t, exec .setTone s = .next t ∧ exec .setTone t = .next t

/-- R142, R150: SILENCE disables the channel, clears LAST_ERR and changes nothing else; TONE_OUT is low at once. -/
def Obligations.SilenceEffect : Prop :=
  encode .silence = 0x00000005#32 ∧
  ∀ s : State, exec .silence s = .next { s with chEn := false, lastErr := .ok } ∧
    toneOut { s with chEn := false, lastErr := .ok } = false

/-! ## The front ends -/

/-- R172, R173, R174: PLAY_TOKEN writes the result registers as RESOLVE does, then programs the channel with a pitch,
silences it for a rest, and for an invalid token silences it under ERR_SILENCE = 1 and leaves it under 0. -/
def Obligations.PlayTokenEffect : Prop :=
  encode .playToken = 0x00000006#32 ∧
  ∀ s : State,
    ∃ r, exec .resolve s = .next r ∧
      ((resolve (token s)).kind = .pitch →
        exec .playToken s = .next (program (search Config.sysClkHz r.resFreq).1 (search Config.sysClkHz r.resFreq).2 r)) ∧
      ((resolve (token s)).kind = .rest → exec .playToken s = .next { r with chEn := false }) ∧
      ((resolve (token s)).kind = .invalid →
        r.resKind = .invalid ∧ r.lastErr = .tokenInvalid ∧ r.errflags.getLsbD 2 = true ∧
        (s.errSilence = true → exec .playToken s = .next { r with chEn := false }) ∧
        (s.errSilence = false → exec .playToken s = .next r)) ∧
      (resolve (token s)).kind ≠ .noResult

/-- R175: KEY_TONE programs 100, 200, 300, 400 or 500 Hz for 'A' to 'E' exactly and silences for every other byte;
LAST_ERR becomes 0. -/
def Obligations.KeyToneEffect : Prop :=
  ∀ (b : Byte) (s : State),
    encode (.keyTone b) = 0x00000007#32 ||| (b.setWidth 32 <<< 8) ∧
    (∀ f : Word,
      (b, f) ∈ [(0x41#8, 0x42C80000#32), (0x42#8, 0x43480000#32), (0x43#8, 0x43960000#32), (0x44#8, 0x43C80000#32),
        (0x45#8, 0x43FA0000#32)] →
      exec (.keyTone b) s = .next { program (search Config.sysClkHz f).1 (search Config.sysClkHz f).2 s with lastErr := .ok }) ∧
    (b.toNat < 0x41 ∨ 0x45 < b.toNat → exec (.keyTone b) s = .next { s with chEn := false, lastErr := .ok })

/-- R176, at SYS_CLK_HZ = 125 000 000: the five key programs. -/
def Obligations.KeyTonePrograms : Prop :=
  search 125000000 0x42C80000#32 = (32, 39062) ∧ search 125000000 0x43480000#32 = (16, 39062) ∧
  search 125000000 0x43960000#32 = (8, 52082) ∧ search 125000000 0x43C80000#32 = (8, 39062) ∧
  search 125000000 0x43FA0000#32 = (4, 62499) ∧
  dutyLevel 39062 = 19531 ∧ dutyLevel 52082 = 26041 ∧ dutyLevel 62499 = 31250

/-- R100, R112, R172: the host program `PLAY "s"`, from any state with reset released, resolves and plays the first 31
bytes of s, in |s| + 2 accesses. -/
def Obligations.PlayText : Prop :=
  ∀ (s : State) (cs : List Byte) (rest : List Event), s.inReset = false →
    ∃ r t : State,
      Host.Core.run core (cs.length + 2) ({ s with pending := lineEvents (.play cs) ++ rest } : State) = .next t ∧
      token r = cs.take 31 ∧ exec .playToken r = .next t ∧
      r = { s with tokLen := r.tokLen, tokbuf := r.tokbuf, lastErr := .ok, pending := rest }

/-! ## All commands -/

/-- R190, R193, R196: every command completes in every state; it leaves in LAST_ERR one of the codes it can report and
sets that code's sticky bit and no other, clearing none. -/
def Obligations.CommandsComplete : Prop :=
  ∀ (i : Instr) (s : State), ∃ t, exec i s = .next t ∧ t.lastErr ∈ allowedErr i ∧
    t.errflags = s.errflags ||| (match t.lastErr with
      | .ok => 0b000#3 | .illegalCmd => 0b001#3 | .badFreq => 0b010#3 | .tokenInvalid => 0b100#3)

/-- R35, R38, R110, R140: the writers of every field: no command writes CTRL or FREQ or what is outside the block; only
TOK_PUSH writes TOKBUF, only the token commands TOK_LEN, only RESOLVE and PLAY_TOKEN the results, and only SET_TONE,
SILENCE, PLAY_TOKEN and KEY_TONE the channel and its counter. -/
def Obligations.WhoWritesWhat : Prop :=
  ∀ (i : Instr) (s t : State), exec i s = .next t →
    t.errSilence = s.errSilence ∧ t.freq = s.freq ∧ t.inReset = s.inReset ∧ t.pending = s.pending ∧
    t.observed = s.observed ∧
    ((∀ b, i ≠ .tokPush b) → t.tokbuf = s.tokbuf) ∧
    (i ≠ .tokClear → (∀ b, i ≠ .tokPush b) → t.tokLen = s.tokLen) ∧
    (i ≠ .resolve → i ≠ .playToken →
      t.resKind = s.resKind ∧ t.resCause = s.resCause ∧ t.resFreq = s.resFreq ∧ t.resNote = s.resNote) ∧
    (i ≠ .setTone → i ≠ .silence → i ≠ .playToken → (∀ b, i ≠ .keyTone b) →
      t.chEn = s.chEn ∧ t.chDiv = s.chDiv ∧ t.chTop = s.chTop ∧ t.chLevel = s.chLevel ∧ t.ctr = s.ctr ∧
      t.presc = s.presc)

/-- R245: TONE_OUT is low from the end of the step of every command that silences. -/
def Obligations.SilencingImmediate : Prop :=
  ∀ (i : Instr) (s t : State), exec i s = .next t →
    (i = .silence ∨
      (i = .setTone ∧ (s.freq = 0x00000000#32 ∨ (0x80000000 ≤ s.freq.toNat ∧ s.freq.toNat ≤ 0xFF800000))) ∨
      (i = .playToken ∧ ((resolve (token s)).kind = .rest ∨
        ((resolve (token s)).kind = .invalid ∧ s.errSilence = true))) ∨
      (∃ b, i = .keyTone b ∧ (b.toNat < 0x41 ∨ 0x45 < b.toNat))) →
    t.chEn = false ∧ toneOut t = false ∧ t.ctr = s.ctr ∧ t.presc = s.presc

/-- R213, R244: a channel that a command enables, or whose program a command changes, starts at the beginning of a cycle,
with TONE_OUT high if CH_LEVEL > 0. -/
def Obligations.NewToneStartsCycle : Prop :=
  ∀ (i : Instr) (s t : State), exec i s = .next t → t.chEn = true →
    (s.chEn = false ∨ t.chDiv ≠ s.chDiv ∨ t.chTop ≠ s.chTop ∨ t.chLevel ≠ s.chLevel) →
    t.ctr = 0#16 ∧ t.presc = 0#8 ∧ (toneOut t = true ↔ 0 < t.chLevel.toNat)

/-! ## The machine -/

/-- R36, R211: every step keeps the invariant. Its item for an asserted reset (R230) is on the model's own field for the
reset input (DESIGN CHOICE, log 10) and says nothing of TOKBUF (log 4). -/
def Obligations.StepKeepsInv : Prop :=
  ∀ s t : State, StateInv s → step s = .next t → StateInv t

/-- R36, R231: the invariant holds after reset. -/
def Obligations.ResetInv : Prop := StateInv State.reset

/-- R40, R123: in every state with the invariant, the note number of a pitch lies in NOTE_MIN..NOTE_MAX. -/
def Obligations.PitchNoteInRange : Prop :=
  ∀ s : State, StateInv s → s.resKind = .pitch → -1836 ≤ s.resNote.toInt ∧ s.resNote.toInt ≤ 1499

/-- R47, R77, R217: the host cannot read the timer: states that differ only in CTR, PRESC and the levels heard so far
step alike, and the host reads the same values. -/
def Obligations.TimerUnreadable : Prop :=
  ∀ s t : State, SameForReader s t → SameOutcome SameForReader (step s) (step t)
end

