-- ==== Sys2Proof/Laws/State.lean ====
section
/-! SUPPORT. One lemma per field per update of Machine/Ops.lean: the field written, and every field left alone. -/

namespace Sys2Proof.Machine

variable (s : State)

@[simp] theorem setErrSilence_errSilence (v : Bool) : (setErrSilence v s).errSilence = v := rfl
@[simp] theorem setErrSilence_chEn (v : Bool) : (setErrSilence v s).chEn = s.chEn := rfl
@[simp] theorem setErrSilence_resKind (v : Bool) : (setErrSilence v s).resKind = s.resKind := rfl
@[simp] theorem setErrSilence_resCause (v : Bool) : (setErrSilence v s).resCause = s.resCause := rfl
@[simp] theorem setErrSilence_tokLen (v : Bool) : (setErrSilence v s).tokLen = s.tokLen := rfl
@[simp] theorem setErrSilence_lastErr (v : Bool) : (setErrSilence v s).lastErr = s.lastErr := rfl
@[simp] theorem setErrSilence_errflags (v : Bool) : (setErrSilence v s).errflags = s.errflags := rfl
@[simp] theorem setErrSilence_freq (v : Bool) : (setErrSilence v s).freq = s.freq := rfl
@[simp] theorem setErrSilence_resFreq (v : Bool) : (setErrSilence v s).resFreq = s.resFreq := rfl
@[simp] theorem setErrSilence_resNote (v : Bool) : (setErrSilence v s).resNote = s.resNote := rfl
@[simp] theorem setErrSilence_chDiv (v : Bool) : (setErrSilence v s).chDiv = s.chDiv := rfl
@[simp] theorem setErrSilence_chTop (v : Bool) : (setErrSilence v s).chTop = s.chTop := rfl
@[simp] theorem setErrSilence_chLevel (v : Bool) : (setErrSilence v s).chLevel = s.chLevel := rfl
@[simp] theorem setErrSilence_tokbuf (v : Bool) : (setErrSilence v s).tokbuf = s.tokbuf := rfl
@[simp] theorem setErrSilence_ctr (v : Bool) : (setErrSilence v s).ctr = s.ctr := rfl
@[simp] theorem setErrSilence_presc (v : Bool) : (setErrSilence v s).presc = s.presc := rfl
@[simp] theorem setErrSilence_inReset (v : Bool) : (setErrSilence v s).inReset = s.inReset := rfl
@[simp] theorem setErrSilence_pending (v : Bool) : (setErrSilence v s).pending = s.pending := rfl
@[simp] theorem setErrSilence_observed (v : Bool) : (setErrSilence v s).observed = s.observed := rfl

@[simp] theorem setChEn_errSilence (v : Bool) : (setChEn v s).errSilence = s.errSilence := rfl
@[simp] theorem setChEn_chEn (v : Bool) : (setChEn v s).chEn = v := rfl
@[simp] theorem setChEn_resKind (v : Bool) : (setChEn v s).resKind = s.resKind := rfl
@[simp] theorem setChEn_resCause (v : Bool) : (setChEn v s).resCause = s.resCause := rfl
@[simp] theorem setChEn_tokLen (v : Bool) : (setChEn v s).tokLen = s.tokLen := rfl
@[simp] theorem setChEn_lastErr (v : Bool) : (setChEn v s).lastErr = s.lastErr := rfl
@[simp] theorem setChEn_errflags (v : Bool) : (setChEn v s).errflags = s.errflags := rfl
@[simp] theorem setChEn_freq (v : Bool) : (setChEn v s).freq = s.freq := rfl
@[simp] theorem setChEn_resFreq (v : Bool) : (setChEn v s).resFreq = s.resFreq := rfl
@[simp] theorem setChEn_resNote (v : Bool) : (setChEn v s).resNote = s.resNote := rfl
@[simp] theorem setChEn_chDiv (v : Bool) : (setChEn v s).chDiv = s.chDiv := rfl
@[simp] theorem setChEn_chTop (v : Bool) : (setChEn v s).chTop = s.chTop := rfl
@[simp] theorem setChEn_chLevel (v : Bool) : (setChEn v s).chLevel = s.chLevel := rfl
@[simp] theorem setChEn_tokbuf (v : Bool) : (setChEn v s).tokbuf = s.tokbuf := rfl
@[simp] theorem setChEn_ctr (v : Bool) : (setChEn v s).ctr = s.ctr := rfl
@[simp] theorem setChEn_presc (v : Bool) : (setChEn v s).presc = s.presc := rfl
@[simp] theorem setChEn_inReset (v : Bool) : (setChEn v s).inReset = s.inReset := rfl
@[simp] theorem setChEn_pending (v : Bool) : (setChEn v s).pending = s.pending := rfl
@[simp] theorem setChEn_observed (v : Bool) : (setChEn v s).observed = s.observed := rfl

@[simp] theorem setResult_errSilence (k : ResKind) (c : ResCause) (n : Word) (f : Word) : (setResult k c n f s).errSilence = s.errSilence := rfl
@[simp] theorem setResult_chEn (k : ResKind) (c : ResCause) (n : Word) (f : Word) : (setResult k c n f s).chEn = s.chEn := rfl
@[simp] theorem setResult_resKind (k : ResKind) (c : ResCause) (n : Word) (f : Word) : (setResult k c n f s).resKind = k := rfl
@[simp] theorem setResult_resCause (k : ResKind) (c : ResCause) (n : Word) (f : Word) : (setResult k c n f s).resCause = c := rfl
@[simp] theorem setResult_tokLen (k : ResKind) (c : ResCause) (n : Word) (f : Word) : (setResult k c n f s).tokLen = s.tokLen := rfl
@[simp] theorem setResult_lastErr (k : ResKind) (c : ResCause) (n : Word) (f : Word) : (setResult k c n f s).lastErr = s.lastErr := rfl
@[simp] theorem setResult_errflags (k : ResKind) (c : ResCause) (n : Word) (f : Word) : (setResult k c n f s).errflags = s.errflags := rfl
@[simp] theorem setResult_freq (k : ResKind) (c : ResCause) (n : Word) (f : Word) : (setResult k c n f s).freq = s.freq := rfl
@[simp] theorem setResult_resFreq (k : ResKind) (c : ResCause) (n : Word) (f : Word) : (setResult k c n f s).resFreq = f := rfl
@[simp] theorem setResult_resNote (k : ResKind) (c : ResCause) (n : Word) (f : Word) : (setResult k c n f s).resNote = n := rfl
@[simp] theorem setResult_chDiv (k : ResKind) (c : ResCause) (n : Word) (f : Word) : (setResult k c n f s).chDiv = s.chDiv := rfl
@[simp] theorem setResult_chTop (k : ResKind) (c : ResCause) (n : Word) (f : Word) : (setResult k c n f s).chTop = s.chTop := rfl
@[simp] theorem setResult_chLevel (k : ResKind) (c : ResCause) (n : Word) (f : Word) : (setResult k c n f s).chLevel = s.chLevel := rfl
@[simp] theorem setResult_tokbuf (k : ResKind) (c : ResCause) (n : Word) (f : Word) : (setResult k c n f s).tokbuf = s.tokbuf := rfl
@[simp] theorem setResult_ctr (k : ResKind) (c : ResCause) (n : Word) (f : Word) : (setResult k c n f s).ctr = s.ctr := rfl
@[simp] theorem setResult_presc (k : ResKind) (c : ResCause) (n : Word) (f : Word) : (setResult k c n f s).presc = s.presc := rfl
@[simp] theorem setResult_inReset (k : ResKind) (c : ResCause) (n : Word) (f : Word) : (setResult k c n f s).inReset = s.inReset := rfl
@[simp] theorem setResult_pending (k : ResKind) (c : ResCause) (n : Word) (f : Word) : (setResult k c n f s).pending = s.pending := rfl
@[simp] theorem setResult_observed (k : ResKind) (c : ResCause) (n : Word) (f : Word) : (setResult k c n f s).observed = s.observed := rfl

@[simp] theorem setTokLen_errSilence (n : BitVec 5) : (setTokLen n s).errSilence = s.errSilence := rfl
@[simp] theorem setTokLen_chEn (n : BitVec 5) : (setTokLen n s).chEn = s.chEn := rfl
@[simp] theorem setTokLen_resKind (n : BitVec 5) : (setTokLen n s).resKind = s.resKind := rfl
@[simp] theorem setTokLen_resCause (n : BitVec 5) : (setTokLen n s).resCause = s.resCause := rfl
@[simp] theorem setTokLen_tokLen (n : BitVec 5) : (setTokLen n s).tokLen = n := rfl
@[simp] theorem setTokLen_lastErr (n : BitVec 5) : (setTokLen n s).lastErr = s.lastErr := rfl
@[simp] theorem setTokLen_errflags (n : BitVec 5) : (setTokLen n s).errflags = s.errflags := rfl
@[simp] theorem setTokLen_freq (n : BitVec 5) : (setTokLen n s).freq = s.freq := rfl
@[simp] theorem setTokLen_resFreq (n : BitVec 5) : (setTokLen n s).resFreq = s.resFreq := rfl
@[simp] theorem setTokLen_resNote (n : BitVec 5) : (setTokLen n s).resNote = s.resNote := rfl
@[simp] theorem setTokLen_chDiv (n : BitVec 5) : (setTokLen n s).chDiv = s.chDiv := rfl
@[simp] theorem setTokLen_chTop (n : BitVec 5) : (setTokLen n s).chTop = s.chTop := rfl
@[simp] theorem setTokLen_chLevel (n : BitVec 5) : (setTokLen n s).chLevel = s.chLevel := rfl
@[simp] theorem setTokLen_tokbuf (n : BitVec 5) : (setTokLen n s).tokbuf = s.tokbuf := rfl
@[simp] theorem setTokLen_ctr (n : BitVec 5) : (setTokLen n s).ctr = s.ctr := rfl
@[simp] theorem setTokLen_presc (n : BitVec 5) : (setTokLen n s).presc = s.presc := rfl
@[simp] theorem setTokLen_inReset (n : BitVec 5) : (setTokLen n s).inReset = s.inReset := rfl
@[simp] theorem setTokLen_pending (n : BitVec 5) : (setTokLen n s).pending = s.pending := rfl
@[simp] theorem setTokLen_observed (n : BitVec 5) : (setTokLen n s).observed = s.observed := rfl

@[simp] theorem setTokbuf_errSilence (b : Vector Byte Config.tokenCap) : (setTokbuf b s).errSilence = s.errSilence := rfl
@[simp] theorem setTokbuf_chEn (b : Vector Byte Config.tokenCap) : (setTokbuf b s).chEn = s.chEn := rfl
@[simp] theorem setTokbuf_resKind (b : Vector Byte Config.tokenCap) : (setTokbuf b s).resKind = s.resKind := rfl
@[simp] theorem setTokbuf_resCause (b : Vector Byte Config.tokenCap) : (setTokbuf b s).resCause = s.resCause := rfl
@[simp] theorem setTokbuf_tokLen (b : Vector Byte Config.tokenCap) : (setTokbuf b s).tokLen = s.tokLen := rfl
@[simp] theorem setTokbuf_lastErr (b : Vector Byte Config.tokenCap) : (setTokbuf b s).lastErr = s.lastErr := rfl
@[simp] theorem setTokbuf_errflags (b : Vector Byte Config.tokenCap) : (setTokbuf b s).errflags = s.errflags := rfl
@[simp] theorem setTokbuf_freq (b : Vector Byte Config.tokenCap) : (setTokbuf b s).freq = s.freq := rfl
@[simp] theorem setTokbuf_resFreq (b : Vector Byte Config.tokenCap) : (setTokbuf b s).resFreq = s.resFreq := rfl
@[simp] theorem setTokbuf_resNote (b : Vector Byte Config.tokenCap) : (setTokbuf b s).resNote = s.resNote := rfl
@[simp] theorem setTokbuf_chDiv (b : Vector Byte Config.tokenCap) : (setTokbuf b s).chDiv = s.chDiv := rfl
@[simp] theorem setTokbuf_chTop (b : Vector Byte Config.tokenCap) : (setTokbuf b s).chTop = s.chTop := rfl
@[simp] theorem setTokbuf_chLevel (b : Vector Byte Config.tokenCap) : (setTokbuf b s).chLevel = s.chLevel := rfl
@[simp] theorem setTokbuf_tokbuf (b : Vector Byte Config.tokenCap) : (setTokbuf b s).tokbuf = b := rfl
@[simp] theorem setTokbuf_ctr (b : Vector Byte Config.tokenCap) : (setTokbuf b s).ctr = s.ctr := rfl
@[simp] theorem setTokbuf_presc (b : Vector Byte Config.tokenCap) : (setTokbuf b s).presc = s.presc := rfl
@[simp] theorem setTokbuf_inReset (b : Vector Byte Config.tokenCap) : (setTokbuf b s).inReset = s.inReset := rfl
@[simp] theorem setTokbuf_pending (b : Vector Byte Config.tokenCap) : (setTokbuf b s).pending = s.pending := rfl
@[simp] theorem setTokbuf_observed (b : Vector Byte Config.tokenCap) : (setTokbuf b s).observed = s.observed := rfl

@[simp] theorem setLastErr_errSilence (e : ErrCode) : (setLastErr e s).errSilence = s.errSilence := rfl
@[simp] theorem setLastErr_chEn (e : ErrCode) : (setLastErr e s).chEn = s.chEn := rfl
@[simp] theorem setLastErr_resKind (e : ErrCode) : (setLastErr e s).resKind = s.resKind := rfl
@[simp] theorem setLastErr_resCause (e : ErrCode) : (setLastErr e s).resCause = s.resCause := rfl
@[simp] theorem setLastErr_tokLen (e : ErrCode) : (setLastErr e s).tokLen = s.tokLen := rfl
@[simp] theorem setLastErr_lastErr (e : ErrCode) : (setLastErr e s).lastErr = e := rfl
@[simp] theorem setLastErr_errflags (e : ErrCode) : (setLastErr e s).errflags = s.errflags := rfl
@[simp] theorem setLastErr_freq (e : ErrCode) : (setLastErr e s).freq = s.freq := rfl
@[simp] theorem setLastErr_resFreq (e : ErrCode) : (setLastErr e s).resFreq = s.resFreq := rfl
@[simp] theorem setLastErr_resNote (e : ErrCode) : (setLastErr e s).resNote = s.resNote := rfl
@[simp] theorem setLastErr_chDiv (e : ErrCode) : (setLastErr e s).chDiv = s.chDiv := rfl
@[simp] theorem setLastErr_chTop (e : ErrCode) : (setLastErr e s).chTop = s.chTop := rfl
@[simp] theorem setLastErr_chLevel (e : ErrCode) : (setLastErr e s).chLevel = s.chLevel := rfl
@[simp] theorem setLastErr_tokbuf (e : ErrCode) : (setLastErr e s).tokbuf = s.tokbuf := rfl
@[simp] theorem setLastErr_ctr (e : ErrCode) : (setLastErr e s).ctr = s.ctr := rfl
@[simp] theorem setLastErr_presc (e : ErrCode) : (setLastErr e s).presc = s.presc := rfl
@[simp] theorem setLastErr_inReset (e : ErrCode) : (setLastErr e s).inReset = s.inReset := rfl
@[simp] theorem setLastErr_pending (e : ErrCode) : (setLastErr e s).pending = s.pending := rfl
@[simp] theorem setLastErr_observed (e : ErrCode) : (setLastErr e s).observed = s.observed := rfl

@[simp] theorem setErrflags_errSilence (f : BitVec 3) : (setErrflags f s).errSilence = s.errSilence := rfl
@[simp] theorem setErrflags_chEn (f : BitVec 3) : (setErrflags f s).chEn = s.chEn := rfl
@[simp] theorem setErrflags_resKind (f : BitVec 3) : (setErrflags f s).resKind = s.resKind := rfl
@[simp] theorem setErrflags_resCause (f : BitVec 3) : (setErrflags f s).resCause = s.resCause := rfl
@[simp] theorem setErrflags_tokLen (f : BitVec 3) : (setErrflags f s).tokLen = s.tokLen := rfl
@[simp] theorem setErrflags_lastErr (f : BitVec 3) : (setErrflags f s).lastErr = s.lastErr := rfl
@[simp] theorem setErrflags_errflags (f : BitVec 3) : (setErrflags f s).errflags = f := rfl
@[simp] theorem setErrflags_freq (f : BitVec 3) : (setErrflags f s).freq = s.freq := rfl
@[simp] theorem setErrflags_resFreq (f : BitVec 3) : (setErrflags f s).resFreq = s.resFreq := rfl
@[simp] theorem setErrflags_resNote (f : BitVec 3) : (setErrflags f s).resNote = s.resNote := rfl
@[simp] theorem setErrflags_chDiv (f : BitVec 3) : (setErrflags f s).chDiv = s.chDiv := rfl
@[simp] theorem setErrflags_chTop (f : BitVec 3) : (setErrflags f s).chTop = s.chTop := rfl
@[simp] theorem setErrflags_chLevel (f : BitVec 3) : (setErrflags f s).chLevel = s.chLevel := rfl
@[simp] theorem setErrflags_tokbuf (f : BitVec 3) : (setErrflags f s).tokbuf = s.tokbuf := rfl
@[simp] theorem setErrflags_ctr (f : BitVec 3) : (setErrflags f s).ctr = s.ctr := rfl
@[simp] theorem setErrflags_presc (f : BitVec 3) : (setErrflags f s).presc = s.presc := rfl
@[simp] theorem setErrflags_inReset (f : BitVec 3) : (setErrflags f s).inReset = s.inReset := rfl
@[simp] theorem setErrflags_pending (f : BitVec 3) : (setErrflags f s).pending = s.pending := rfl
@[simp] theorem setErrflags_observed (f : BitVec 3) : (setErrflags f s).observed = s.observed := rfl

@[simp] theorem setFreq_errSilence (v : Word) : (setFreq v s).errSilence = s.errSilence := rfl
@[simp] theorem setFreq_chEn (v : Word) : (setFreq v s).chEn = s.chEn := rfl
@[simp] theorem setFreq_resKind (v : Word) : (setFreq v s).resKind = s.resKind := rfl
@[simp] theorem setFreq_resCause (v : Word) : (setFreq v s).resCause = s.resCause := rfl
@[simp] theorem setFreq_tokLen (v : Word) : (setFreq v s).tokLen = s.tokLen := rfl
@[simp] theorem setFreq_lastErr (v : Word) : (setFreq v s).lastErr = s.lastErr := rfl
@[simp] theorem setFreq_errflags (v : Word) : (setFreq v s).errflags = s.errflags := rfl
@[simp] theorem setFreq_freq (v : Word) : (setFreq v s).freq = v := rfl
@[simp] theorem setFreq_resFreq (v : Word) : (setFreq v s).resFreq = s.resFreq := rfl
@[simp] theorem setFreq_resNote (v : Word) : (setFreq v s).resNote = s.resNote := rfl
@[simp] theorem setFreq_chDiv (v : Word) : (setFreq v s).chDiv = s.chDiv := rfl
@[simp] theorem setFreq_chTop (v : Word) : (setFreq v s).chTop = s.chTop := rfl
@[simp] theorem setFreq_chLevel (v : Word) : (setFreq v s).chLevel = s.chLevel := rfl
@[simp] theorem setFreq_tokbuf (v : Word) : (setFreq v s).tokbuf = s.tokbuf := rfl
@[simp] theorem setFreq_ctr (v : Word) : (setFreq v s).ctr = s.ctr := rfl
@[simp] theorem setFreq_presc (v : Word) : (setFreq v s).presc = s.presc := rfl
@[simp] theorem setFreq_inReset (v : Word) : (setFreq v s).inReset = s.inReset := rfl
@[simp] theorem setFreq_pending (v : Word) : (setFreq v s).pending = s.pending := rfl
@[simp] theorem setFreq_observed (v : Word) : (setFreq v s).observed = s.observed := rfl

@[simp] theorem setProgram_errSilence (d : BitVec 9) (p : BitVec 16) (l : BitVec 17) : (setProgram d p l s).errSilence = s.errSilence := rfl
@[simp] theorem setProgram_chEn (d : BitVec 9) (p : BitVec 16) (l : BitVec 17) : (setProgram d p l s).chEn = s.chEn := rfl
@[simp] theorem setProgram_resKind (d : BitVec 9) (p : BitVec 16) (l : BitVec 17) : (setProgram d p l s).resKind = s.resKind := rfl
@[simp] theorem setProgram_resCause (d : BitVec 9) (p : BitVec 16) (l : BitVec 17) : (setProgram d p l s).resCause = s.resCause := rfl
@[simp] theorem setProgram_tokLen (d : BitVec 9) (p : BitVec 16) (l : BitVec 17) : (setProgram d p l s).tokLen = s.tokLen := rfl
@[simp] theorem setProgram_lastErr (d : BitVec 9) (p : BitVec 16) (l : BitVec 17) : (setProgram d p l s).lastErr = s.lastErr := rfl
@[simp] theorem setProgram_errflags (d : BitVec 9) (p : BitVec 16) (l : BitVec 17) : (setProgram d p l s).errflags = s.errflags := rfl
@[simp] theorem setProgram_freq (d : BitVec 9) (p : BitVec 16) (l : BitVec 17) : (setProgram d p l s).freq = s.freq := rfl
@[simp] theorem setProgram_resFreq (d : BitVec 9) (p : BitVec 16) (l : BitVec 17) : (setProgram d p l s).resFreq = s.resFreq := rfl
@[simp] theorem setProgram_resNote (d : BitVec 9) (p : BitVec 16) (l : BitVec 17) : (setProgram d p l s).resNote = s.resNote := rfl
@[simp] theorem setProgram_chDiv (d : BitVec 9) (p : BitVec 16) (l : BitVec 17) : (setProgram d p l s).chDiv = d := rfl
@[simp] theorem setProgram_chTop (d : BitVec 9) (p : BitVec 16) (l : BitVec 17) : (setProgram d p l s).chTop = p := rfl
@[simp] theorem setProgram_chLevel (d : BitVec 9) (p : BitVec 16) (l : BitVec 17) : (setProgram d p l s).chLevel = l := rfl
@[simp] theorem setProgram_tokbuf (d : BitVec 9) (p : BitVec 16) (l : BitVec 17) : (setProgram d p l s).tokbuf = s.tokbuf := rfl
@[simp] theorem setProgram_ctr (d : BitVec 9) (p : BitVec 16) (l : BitVec 17) : (setProgram d p l s).ctr = s.ctr := rfl
@[simp] theorem setProgram_presc (d : BitVec 9) (p : BitVec 16) (l : BitVec 17) : (setProgram d p l s).presc = s.presc := rfl
@[simp] theorem setProgram_inReset (d : BitVec 9) (p : BitVec 16) (l : BitVec 17) : (setProgram d p l s).inReset = s.inReset := rfl
@[simp] theorem setProgram_pending (d : BitVec 9) (p : BitVec 16) (l : BitVec 17) : (setProgram d p l s).pending = s.pending := rfl
@[simp] theorem setProgram_observed (d : BitVec 9) (p : BitVec 16) (l : BitVec 17) : (setProgram d p l s).observed = s.observed := rfl

@[simp] theorem setCounter_errSilence (c : BitVec 16) (p : BitVec 8) : (setCounter c p s).errSilence = s.errSilence := rfl
@[simp] theorem setCounter_chEn (c : BitVec 16) (p : BitVec 8) : (setCounter c p s).chEn = s.chEn := rfl
@[simp] theorem setCounter_resKind (c : BitVec 16) (p : BitVec 8) : (setCounter c p s).resKind = s.resKind := rfl
@[simp] theorem setCounter_resCause (c : BitVec 16) (p : BitVec 8) : (setCounter c p s).resCause = s.resCause := rfl
@[simp] theorem setCounter_tokLen (c : BitVec 16) (p : BitVec 8) : (setCounter c p s).tokLen = s.tokLen := rfl
@[simp] theorem setCounter_lastErr (c : BitVec 16) (p : BitVec 8) : (setCounter c p s).lastErr = s.lastErr := rfl
@[simp] theorem setCounter_errflags (c : BitVec 16) (p : BitVec 8) : (setCounter c p s).errflags = s.errflags := rfl
@[simp] theorem setCounter_freq (c : BitVec 16) (p : BitVec 8) : (setCounter c p s).freq = s.freq := rfl
@[simp] theorem setCounter_resFreq (c : BitVec 16) (p : BitVec 8) : (setCounter c p s).resFreq = s.resFreq := rfl
@[simp] theorem setCounter_resNote (c : BitVec 16) (p : BitVec 8) : (setCounter c p s).resNote = s.resNote := rfl
@[simp] theorem setCounter_chDiv (c : BitVec 16) (p : BitVec 8) : (setCounter c p s).chDiv = s.chDiv := rfl
@[simp] theorem setCounter_chTop (c : BitVec 16) (p : BitVec 8) : (setCounter c p s).chTop = s.chTop := rfl
@[simp] theorem setCounter_chLevel (c : BitVec 16) (p : BitVec 8) : (setCounter c p s).chLevel = s.chLevel := rfl
@[simp] theorem setCounter_tokbuf (c : BitVec 16) (p : BitVec 8) : (setCounter c p s).tokbuf = s.tokbuf := rfl
@[simp] theorem setCounter_ctr (c : BitVec 16) (p : BitVec 8) : (setCounter c p s).ctr = c := rfl
@[simp] theorem setCounter_presc (c : BitVec 16) (p : BitVec 8) : (setCounter c p s).presc = p := rfl
@[simp] theorem setCounter_inReset (c : BitVec 16) (p : BitVec 8) : (setCounter c p s).inReset = s.inReset := rfl
@[simp] theorem setCounter_pending (c : BitVec 16) (p : BitVec 8) : (setCounter c p s).pending = s.pending := rfl
@[simp] theorem setCounter_observed (c : BitVec 16) (p : BitVec 8) : (setCounter c p s).observed = s.observed := rfl

@[simp] theorem setInReset_errSilence (v : Bool) : (setInReset v s).errSilence = s.errSilence := rfl
@[simp] theorem setInReset_chEn (v : Bool) : (setInReset v s).chEn = s.chEn := rfl
@[simp] theorem setInReset_resKind (v : Bool) : (setInReset v s).resKind = s.resKind := rfl
@[simp] theorem setInReset_resCause (v : Bool) : (setInReset v s).resCause = s.resCause := rfl
@[simp] theorem setInReset_tokLen (v : Bool) : (setInReset v s).tokLen = s.tokLen := rfl
@[simp] theorem setInReset_lastErr (v : Bool) : (setInReset v s).lastErr = s.lastErr := rfl
@[simp] theorem setInReset_errflags (v : Bool) : (setInReset v s).errflags = s.errflags := rfl
@[simp] theorem setInReset_freq (v : Bool) : (setInReset v s).freq = s.freq := rfl
@[simp] theorem setInReset_resFreq (v : Bool) : (setInReset v s).resFreq = s.resFreq := rfl
@[simp] theorem setInReset_resNote (v : Bool) : (setInReset v s).resNote = s.resNote := rfl
@[simp] theorem setInReset_chDiv (v : Bool) : (setInReset v s).chDiv = s.chDiv := rfl
@[simp] theorem setInReset_chTop (v : Bool) : (setInReset v s).chTop = s.chTop := rfl
@[simp] theorem setInReset_chLevel (v : Bool) : (setInReset v s).chLevel = s.chLevel := rfl
@[simp] theorem setInReset_tokbuf (v : Bool) : (setInReset v s).tokbuf = s.tokbuf := rfl
@[simp] theorem setInReset_ctr (v : Bool) : (setInReset v s).ctr = s.ctr := rfl
@[simp] theorem setInReset_presc (v : Bool) : (setInReset v s).presc = s.presc := rfl
@[simp] theorem setInReset_inReset (v : Bool) : (setInReset v s).inReset = v := rfl
@[simp] theorem setInReset_pending (v : Bool) : (setInReset v s).pending = s.pending := rfl
@[simp] theorem setInReset_observed (v : Bool) : (setInReset v s).observed = s.observed := rfl

@[simp] theorem setPending_errSilence (es : List Event) : (setPending es s).errSilence = s.errSilence := rfl
@[simp] theorem setPending_chEn (es : List Event) : (setPending es s).chEn = s.chEn := rfl
@[simp] theorem setPending_resKind (es : List Event) : (setPending es s).resKind = s.resKind := rfl
@[simp] theorem setPending_resCause (es : List Event) : (setPending es s).resCause = s.resCause := rfl
@[simp] theorem setPending_tokLen (es : List Event) : (setPending es s).tokLen = s.tokLen := rfl
@[simp] theorem setPending_lastErr (es : List Event) : (setPending es s).lastErr = s.lastErr := rfl
@[simp] theorem setPending_errflags (es : List Event) : (setPending es s).errflags = s.errflags := rfl
@[simp] theorem setPending_freq (es : List Event) : (setPending es s).freq = s.freq := rfl
@[simp] theorem setPending_resFreq (es : List Event) : (setPending es s).resFreq = s.resFreq := rfl
@[simp] theorem setPending_resNote (es : List Event) : (setPending es s).resNote = s.resNote := rfl
@[simp] theorem setPending_chDiv (es : List Event) : (setPending es s).chDiv = s.chDiv := rfl
@[simp] theorem setPending_chTop (es : List Event) : (setPending es s).chTop = s.chTop := rfl
@[simp] theorem setPending_chLevel (es : List Event) : (setPending es s).chLevel = s.chLevel := rfl
@[simp] theorem setPending_tokbuf (es : List Event) : (setPending es s).tokbuf = s.tokbuf := rfl
@[simp] theorem setPending_ctr (es : List Event) : (setPending es s).ctr = s.ctr := rfl
@[simp] theorem setPending_presc (es : List Event) : (setPending es s).presc = s.presc := rfl
@[simp] theorem setPending_inReset (es : List Event) : (setPending es s).inReset = s.inReset := rfl
@[simp] theorem setPending_pending (es : List Event) : (setPending es s).pending = es := rfl
@[simp] theorem setPending_observed (es : List Event) : (setPending es s).observed = s.observed := rfl

@[simp] theorem observe_errSilence (o : Observation) : (observe o s).errSilence = s.errSilence := rfl
@[simp] theorem observe_chEn (o : Observation) : (observe o s).chEn = s.chEn := rfl
@[simp] theorem observe_resKind (o : Observation) : (observe o s).resKind = s.resKind := rfl
@[simp] theorem observe_resCause (o : Observation) : (observe o s).resCause = s.resCause := rfl
@[simp] theorem observe_tokLen (o : Observation) : (observe o s).tokLen = s.tokLen := rfl
@[simp] theorem observe_lastErr (o : Observation) : (observe o s).lastErr = s.lastErr := rfl
@[simp] theorem observe_errflags (o : Observation) : (observe o s).errflags = s.errflags := rfl
@[simp] theorem observe_freq (o : Observation) : (observe o s).freq = s.freq := rfl
@[simp] theorem observe_resFreq (o : Observation) : (observe o s).resFreq = s.resFreq := rfl
@[simp] theorem observe_resNote (o : Observation) : (observe o s).resNote = s.resNote := rfl
@[simp] theorem observe_chDiv (o : Observation) : (observe o s).chDiv = s.chDiv := rfl
@[simp] theorem observe_chTop (o : Observation) : (observe o s).chTop = s.chTop := rfl
@[simp] theorem observe_chLevel (o : Observation) : (observe o s).chLevel = s.chLevel := rfl
@[simp] theorem observe_tokbuf (o : Observation) : (observe o s).tokbuf = s.tokbuf := rfl
@[simp] theorem observe_ctr (o : Observation) : (observe o s).ctr = s.ctr := rfl
@[simp] theorem observe_presc (o : Observation) : (observe o s).presc = s.presc := rfl
@[simp] theorem observe_inReset (o : Observation) : (observe o s).inReset = s.inReset := rfl
@[simp] theorem observe_pending (o : Observation) : (observe o s).pending = s.pending := rfl
@[simp] theorem observe_observed (o : Observation) : (observe o s).observed = o :: s.observed := rfl

end Sys2Proof.Machine
end

