-- ==== Sys2Proof/Laws/Ops.lean ====
section
/-! SUPPORT. One lemma per shared operation: everything it can do, and its frame. -/

namespace Sys2Proof.Machine

/-! ## Errors, the register map, the port -/

theorem report_eq (e : ErrCode) (s : State) :
    report e s = { s with lastErr := e, errflags := s.errflags ||| stickyBit e } := rfl

theorem regAt_regOffset (r : Reg) : regAt (regOffset r) = some r := by cases r <;> rfl

theorem regAt_eq_some {a : Nat} {r : Reg} (h : regAt a = some r) : a = regOffset r := by
  unfold regAt at h
  split at h <;> first | (injection h with h; subst h; rfl) | cases h

theorem regAt_reserved {a : Nat} (h : 0x28 ≤ a) : regAt a = none := by
  cases hr : regAt a with
  | none => rfl
  | some r =>
    have ha := regAt_eq_some hr
    cases r <;> simp only [regOffset] at ha <;> omega

theorem admitted_iff (a size : Nat) : admitted a size = true ↔ size = 4 ∧ a % 4 = 0 ∧ a ≤ 0x3C := by
  simp [admitted, and_assoc]

/-! ## The token buffer -/

theorem pushToken_of_lt (b : Byte) (s : State) (h : s.tokLen.toNat < Config.tokenCap) :
    pushToken b s = { s with tokbuf := s.tokbuf.set s.tokLen.toNat b h, tokLen := s.tokLen + 1 } := by
  simp only [pushToken, dif_pos h, setTokLen, setTokbuf]

theorem pushToken_of_full (b : Byte) (s : State) (h : ¬s.tokLen.toNat < Config.tokenCap) : pushToken b s = s := by
  simp only [pushToken, dif_neg h]

theorem token_length (s : State) : (token s).length = s.tokLen.toNat := by
  have := s.tokLen.isLt
  simp [token, Config.tokenCap]
  omega

/-! ## Results -/

theorem commitResult_of_pitch (r : Resolution) (s : State) (h : r.kind = .pitch) :
    commitResult r s = setLastErr .ok (setResult .pitch r.cause (twos32 r.note) r.freq s) := by
  simp [commitResult, h]

theorem commitResult_of_invalid (r : Resolution) (s : State) (h : r.kind = .invalid) :
    commitResult r s = report .tokenInvalid (setResult .invalid r.cause 0x00000000#32 0x00000000#32 s) := by
  simp [commitResult, h]

theorem commitResult_of_rest (r : Resolution) (s : State) (h : r.kind = .rest) :
    commitResult r s = setLastErr .ok (setResult .rest r.cause 0x00000000#32 0x00000000#32 s) := by
  simp [commitResult, h]

/-- Only the result registers, LAST_ERR and ERRFLAGS can differ after a result is written. -/
theorem commitResult_frame (r : Resolution) (s : State) :
    commitResult r s =
      { s with
        resKind := (commitResult r s).resKind, resCause := (commitResult r s).resCause
        resNote := (commitResult r s).resNote, resFreq := (commitResult r s).resFreq
        lastErr := (commitResult r s).lastErr, errflags := (commitResult r s).errflags } := by
  simp only [commitResult]
  split <;> rfl

/-! ## The channel -/

theorem silence_eq (s : State) : silence s = { s with chEn := false } := rfl

theorem program_of_same (d p : Nat) (s : State)
    (h : sameProgram (BitVec.ofNat 9 d) (BitVec.ofNat 16 p) (BitVec.ofNat 17 (dutyLevel p)) s = true) :
    program d p s = s := by
  simp only [program, h, if_true]
  simp only [sameProgram, Bool.and_eq_true, beq_iff_eq] at h
  obtain ⟨⟨⟨h1, h2⟩, h3⟩, h4⟩ := h
  cases s
  simp_all [setChEn, setProgram]

theorem program_of_new (d p : Nat) (s : State)
    (h : sameProgram (BitVec.ofNat 9 d) (BitVec.ofNat 16 p) (BitVec.ofNat 17 (dutyLevel p)) s = false) :
    program d p s =
      { s with
        chDiv := BitVec.ofNat 9 d, chTop := BitVec.ofNat 16 p, chLevel := BitVec.ofNat 17 (dutyLevel p)
        chEn := true, ctr := 0, presc := 0 } := by
  simp only [program, h]
  rfl

theorem program_chEn (d p : Nat) (s : State) : (program d p s).chEn = true := by
  simp only [program]
  split <;> simp

/-- Only the channel program, CH_EN and the counter can differ after a search. -/
theorem searchAndProgram_frame (clk : Nat) (b : Word) (s : State) :
    searchAndProgram clk b s =
      { s with
        chDiv := (searchAndProgram clk b s).chDiv, chTop := (searchAndProgram clk b s).chTop
        chLevel := (searchAndProgram clk b s).chLevel, chEn := (searchAndProgram clk b s).chEn
        ctr := (searchAndProgram clk b s).ctr, presc := (searchAndProgram clk b s).presc } := by
  simp only [searchAndProgram, program]
  split <;> rfl

/-- Only the channel program, CH_EN and the counter can differ after PLAY_TOKEN drives the channel. -/
theorem driveChannel_frame (clk : Nat) (r : Resolution) (s : State) :
    driveChannel clk r s =
      { s with
        chDiv := (driveChannel clk r s).chDiv, chTop := (driveChannel clk r s).chTop
        chLevel := (driveChannel clk r s).chLevel, chEn := (driveChannel clk r s).chEn
        ctr := (driveChannel clk r s).ctr, presc := (driveChannel clk r s).presc } := by
  simp only [driveChannel]
  split
  · exact searchAndProgram_frame clk r.freq s
  · rfl
  · split <;> rfl
  · rfl

/-- A search from a divider in the set stays in it, and its period fits 16 bits. -/
theorem searchFrom_bounds (clk : Nat) (b : Word) (k d : Nat) (hd : ∀ j : Nat, j < k → 2 ^ j * d ≤ Config.divMax) :
    (∃ j : Nat, j < k ∧ (searchFrom clk b k d).1 = 2 ^ j * d) ∧ (searchFrom clk b k d).2 ≤ Config.topMax ∨
      searchFrom clk b k d = clampProgram := by
  induction k generalizing d with
  | zero => exact .inr rfl
  | succ k ih =>
    simp only [searchFrom]
    split
    · rename_i hf
      simp only [fits, Bool.and_eq_true, decide_eq_true_eq] at hf
      exact .inl ⟨⟨0, by omega, by simp⟩, by simp only; omega⟩
    · rcases ih (2 * d) (fun j hj => by simpa [pow_succ, Nat.mul_assoc] using hd (j + 1) (by omega)) with ⟨⟨j, hj, h1⟩, h2⟩ | h
      · exact .inl ⟨⟨j + 1, by omega, by rw [h1, pow_succ, Nat.mul_assoc]⟩, h2⟩
      · exact .inr h

theorem search_bounds (clk : Nat) (b : Word) :
    (search clk b).1 ∈ [1, 2, 4, 8, 16, 32, 64, 128, 256] ∧ (search clk b).2 ≤ 65535 := by
  rcases searchFrom_bounds clk b 9 1 (fun j hj => by interval_cases j <;> decide) with ⟨⟨j, hj, h1⟩, h2⟩ | h
  · refine ⟨?_, h2⟩
    rw [search, h1]
    interval_cases j <;> decide
  · rw [search, h]
    decide

/-! ## The timer -/

theorem timerStep_disabled (s : State) (h : s.chEn = false) : timerStep s = s := by
  simp [timerStep, h]

theorem timerStep_prescale (s : State) (h : s.chEn = true) (hp : s.presc.toNat + 1 ≠ s.chDiv.toNat) :
    timerStep s = { s with presc := s.presc + 1 } := by
  simp [timerStep, h, hp, setCounter]

theorem timerStep_count (s : State) (h : s.chEn = true) (hp : s.presc.toNat + 1 = s.chDiv.toNat) :
    timerStep s = { s with ctr := if s.ctr = s.chTop then 0 else s.ctr + 1, presc := 0 } := by
  simp [timerStep, h, hp, setCounter]

/-- Only the counter and the observations can differ after a clock edge. -/
theorem onClockEdge_frame (s : State) :
    onClockEdge s =
      { s with ctr := (onClockEdge s).ctr, presc := (onClockEdge s).presc, observed := (onClockEdge s).observed } := by
  simp only [onClockEdge, timerStep]
  split
  · split <;> rfl
  · rfl

/-! ## Rounding -/

theorem searchPattern_le (above : Nat → Bool) (k acc : Nat) (h : acc ≤ infPattern) :
    searchPattern above k acc ≤ infPattern := by
  induction k generalizing acc with
  | zero => exact h
  | succ k ih =>
    simp only [searchPattern]
    apply ih
    split
    · rename_i hc
      simp only [Bool.and_eq_true, decide_eq_true_eq] at hc
      exact hc.1
    · exact h

/-- `rne32` gives +0.0, a positive finite pattern or +∞, nothing else. -/
theorem rne32_le_inf (cmp : Nat → Int → Ordering) : (rne32 cmp).toNat ≤ 0x7F800000 := by
  have h := searchPattern_le (roundsAbove cmp) 31 0 (by decide)
  simp only [rne32, BitVec.toNat_ofNat]
  exact (Nat.mod_le _ _).trans h

end Sys2Proof.Machine
end

