-- ==== Sys2Proof/Laws/PerInstr.lean ====
section
/-! SUPPORT. The statement family over the commands as syntax: the word of every command is legal by R95's own clauses,
and its OPC field is the command's number in R94. -/

namespace Sys2Proof.Laws.EncodedLegal

/-- The OPC number of a command (R94). -/
def opcNumber : Instr → Byte
  | .nop => 0x00#8
  | .tokClear => 0x01#8
  | .tokPush _ => 0x02#8
  | .resolve => 0x03#8
  | .setTone => 0x04#8
  | .silence => 0x05#8
  | .playToken => 0x06#8
  | .keyTone _ => 0x07#8

/-- The command's word is legal (R95) and carries its number in OPC (R91, R94). -/
def Statement (i : Instr) : Prop := legalWord (encode i) = true ∧ opcField (encode i) = opcNumber i

theorem nop : Statement .nop := by unfold Statement; decide

theorem tokClear : Statement .tokClear := by unfold Statement; decide

theorem tokPush : ∀ b, Statement (.tokPush b) := by unfold Statement; decide

theorem resolve : Statement .resolve := by unfold Statement; decide

theorem setTone : Statement .setTone := by unfold Statement; decide

theorem silence : Statement .silence := by unfold Statement; decide

theorem playToken : Statement .playToken := by unfold Statement; decide

theorem keyTone : ∀ b, Statement (.keyTone b) := by unfold Statement; decide

end Sys2Proof.Laws.EncodedLegal
end

