-- ==== Sys2Proof/Laws/Resolve.lean ====
section
/-! SUPPORT. Everything `resolve` and FREQ_FN can answer. -/

namespace Sys2Proof.Machine

/-- A token is a rest, a pitch whose frequency is neither +0.0 nor +∞, or invalid with a cause. -/
theorem resolveWith_cases (fn : Int → Word) (t : List Byte) :
    resolveWith fn t = restResult ∨
      (∃ n, fn n ≠ 0x00000000#32 ∧ fn n ≠ 0x7F800000#32 ∧ resolveWith fn t = ⟨.pitch, .noCause, n, fn n⟩) ∨
      ∃ c, c ≠ .noCause ∧ resolveWith fn t = invalidResult c := by
  simp only [resolveWith]
  split
  · exact .inl rfl
  · split
    · exact .inr (.inr ⟨.badLetter, by decide, rfl⟩)
    · split
      · exact .inr (.inr ⟨.badLetter, by decide, rfl⟩)
      · split
        · exact .inr (.inr ⟨.badOctave, by decide, rfl⟩)
        · simp only [pitchResult]
          split
          · exact .inr (.inr ⟨.range, by decide, rfl⟩)
          · rename_i h
            rw [not_or] at h
            exact .inr (.inl ⟨_, h.1, h.2, rfl⟩)

/-- The reference frequency is +0.0, +∞, or a positive finite pattern of a note number inside the evaluation bound. -/
theorem freqFnRef_cases (n : Int) :
    freqFnRef n = 0x00000000#32 ∨ freqFnRef n = 0x7F800000#32 ∨
      (isPosFinite (freqFnRef n) = true ∧ -evalBound ≤ n ∧ n ≤ evalBound) := by
  by_cases h0 : n < -evalBound
  · exact .inl (if_pos h0)
  by_cases h1 : evalBound < n
  · exact .inr (.inl (by rw [freqFnRef, if_neg h0, if_pos h1]))
  have he : freqFnRef n = rne32 (compareNote n) := by rw [freqFnRef, if_neg h0, if_neg h1]
  rw [he]
  have hle := rne32_le_inf (compareNote n)
  by_cases hz : (rne32 (compareNote n)).toNat = 0
  · exact .inl (BitVec.eq_of_toNat_eq hz)
  by_cases hi : (rne32 (compareNote n)).toNat = 0x7F800000
  · exact .inr (.inl (BitVec.eq_of_toNat_eq hi))
  refine .inr (.inr ⟨?_, by omega, by omega⟩)
  simp only [isPosFinite, Bool.and_eq_true, decide_eq_true_eq]
  omega

end Sys2Proof.Machine
end

