-- ==== Sys2Proof/Laws/Step.lean ====
section
/-! SUPPORT. What one step can do: the inversion lemma every invariant is proved from. -/

namespace Sys2Proof.Machine

theorem memWrite_cases {a : Nat} {v : Word} {s t : State} (h : memWrite a v s = .next t) :
    (regAt a ≠ some .cmd ∧ t = writeReg (regAt a) v s) ∨
      (regAt a = some .cmd ∧ ∃ e, decode v = .error e ∧ t = report .illegalCmd s) ∨
      (regAt a = some .cmd ∧ ∃ i, decode v = .ok i ∧ exec i s = .next t) := by
  by_cases hc : regAt a = some .cmd
  · simp only [memWrite, hc, writeCmd] at h
    split at h
    · rename_i i hd
      exact .inr (.inr ⟨hc, i, hd, h⟩)
    · rename_i e hd
      injection h with h
      exact .inr (.inl ⟨hc, e, hd, h.symm⟩)
  · have h' : memWrite a v s = .next (writeReg (regAt a) v s) := by
      unfold memWrite
      split
      · contradiction
      · rfl
    rw [h'] at h
    injection h with h
    exact .inl ⟨hc, h.symm⟩

/-- Everything a step that goes on can have been: a clock edge, a change of the reset input, an admitted read, or an
admitted write, which is a plain register write, an illegal word or a command. -/
theorem step_cases {s t : State} (h : step s = .next t) :
    (s.pending = [] ∧ t = onClockEdge s) ∨
      ∃ e es, s.pending = e :: es ∧
        ((e = .clockEdge ∧ t = onClockEdge (setPending es s)) ∨
          (e = .resetAssert ∧ t = assertReset (setPending es s)) ∨
          (e = .resetRelease ∧ t = releaseReset (setPending es s)) ∨
          (s.inReset = false ∧ ∃ a n, e = .access .host (.read a n) ∧ admitted a n = true ∧
            t = memRead a (setPending es s)) ∨
          (s.inReset = false ∧ ∃ a n v, e = .access .host (.write a n v) ∧ admitted a n = true ∧
            memWrite a v (setPending es s) = .next t)) := by
  simp only [step, runNext] at h
  cases hp : s.pending with
  | nil =>
    rw [hp] at h
    injection h with h
    exact .inl ⟨rfl, h.symm⟩
  | cons e es =>
    refine .inr ⟨e, es, rfl, ?_⟩
    simp only [hp] at h
    cases e with
    | clockEdge =>
      injection h with h
      exact .inl ⟨rfl, h.symm⟩
    | resetAssert =>
      injection h with h
      exact .inr (.inl ⟨rfl, h.symm⟩)
    | resetRelease =>
      injection h with h
      exact .inr (.inr (.inl ⟨rfl, h.symm⟩))
    | access r a =>
      refine .inr (.inr (.inr ?_))
      cases r with
      | second => simp [onEvent, onAccess] at h
      | host =>
        simp only [onEvent, onAccess] at h
        split at h
        · cases h
        · rename_i hn
          simp only [Bool.or_eq_true, Bool.not_eq_true', not_or, Bool.not_eq_true, Bool.not_eq_false,
            setPending_inReset] at hn
          cases a with
          | read a n =>
            injection h with h
            exact .inl ⟨hn.1, a, n, rfl, hn.2, h.symm⟩
          | write a n v => exact .inr ⟨hn.1, a, n, v, rfl, hn.2, h⟩

end Sys2Proof.Machine
end

