-- ==== Sys2Proof/Tests/Slice0.lean ====
section
/-! SUPPORT. The model's own tests: words of the spec decoded, one step per command against 95_test_vectors.md, the
checks of WellFormed.lean, and a witness for the hypotheses of every statement that has some. -/

namespace Sys2Proof.Tests

-- One theorem at a time: proved side by side, their threads' stacks can exceed the memory limit.
set_option Elab.async false

open Sys2Proof Sys2Proof.Machine

/-! ## Helpers -/

/-- The next state, when there is one. -/
def after : Host.Outcome State Fault Refusal → Option State
  | .next t => some t
  | .fault _ => none
  | .refused _ => none

/-- The state after reset with these events to come. -/
def awaiting (es : List Event) : State := { State.reset with pending := es }

/-- The host reads the register at an offset. -/
def reads (a : Nat) : State := awaiting [.access .host (.read a 4)]

/-- The host writes a value at an offset. -/
def writes (a : Nat) (v : Word) : State := awaiting [.access .host (.write a 4 v)]

/-- The state after reset with a token in the buffer. -/
def holding (bs : List Byte) : State := bs.foldl (fun s b => pushToken b s) State.reset

/-- Vector D1's end state: A4 plays, here in the middle of a cycle. -/
def playing : State :=
  { State.reset with
    chEn := true, chDiv := 8, chTop := 35510, chLevel := 17755, ctr := 3, presc := 2, freq := 0x43DC0000#32 }

/-! ## Decoding: one word per row of R94, written out {RSV, ARG, OPC} -/

theorem test_decode_nop : decode 0b0000000000000000_00000000_00000000#32 = .ok .nop := by decide

theorem test_decode_tokClear : decode 0b0000000000000000_00000000_00000001#32 = .ok .tokClear := by decide

theorem test_decode_tokPush : decode 0b0000000000000000_01000010_00000010#32 = .ok (.tokPush 0x42#8) := by decide

theorem test_decode_resolve : decode 0b0000000000000000_00000000_00000011#32 = .ok .resolve := by decide

theorem test_decode_setTone : decode 0b0000000000000000_00000000_00000100#32 = .ok .setTone := by decide

theorem test_decode_silence : decode 0b0000000000000000_00000000_00000101#32 = .ok .silence := by decide

theorem test_decode_playToken : decode 0b0000000000000000_00000000_00000110#32 = .ok .playToken := by decide

theorem test_decode_keyTone : decode 0b0000000000000000_11111111_00000111#32 = .ok (.keyTone 0xFF#8) := by decide

/-- Vectors E2 to E8: illegal words, by clause of R95. -/
theorem test_decode_illegal :
    [0x00010000#32, 0x80000002#32, 0x00000008#32, 0x000000FF#32, 0x00000103#32, 0x00000100#32, 0x00000504#32].map
      (fun w => match decode w with | .ok _ => none | .error e => some e) =
    [some .rsvNonzero, some .rsvNonzero, some .opcUnassigned, some .opcUnassigned, some .argNonzero, some .argNonzero,
      some .argNonzero] := by decide

/-- The table word of TOK_PUSH with ARG 0, and of SET_TONE. -/
theorem test_decodeTableWord : decodeTableWord 32 0x2 = some (.tokPush 0) ∧ decodeTableWord 32 0x4 = some .setTone := by
  decide

/-! ## WellFormed: an ill-formed word for each check -/

theorem test_rsvClear_refuses : rsvClear 0x00010000#32 = false ∧ legalWord 0x00010000#32 = false := by decide

theorem test_opcAssigned_refuses : opcAssigned 0x00000008#32 = false ∧ legalWord 0x00000008#32 = false := by decide

theorem test_argAllowed_refuses : argAllowed 0x00000103#32 = false ∧ legalWord 0x00000103#32 = false := by decide

theorem test_legalWord_accepts : legalWord 0x0000FF02#32 = true ∧ (Instr.tokPush 0xFF#8).wellFormed = true := by decide

/-! ## One step per command -/

/-- Vector F1. -/
theorem test_nop :
    (after (exec .nop { State.reset with lastErr := .illegalCmd, errflags := 1 })).map (fun t => (t.lastErr, t.errflags)) =
      some (.ok, 1) := by decide

/-- Vector T2. -/
theorem test_tokClear :
    (after (exec .tokClear (holding [0x42#8, 0x62#8, 0x35#8]))).map (fun t => statusWord t) = some 0x00000000#32 := by
  decide

/-- Vector T1, its last command. -/
theorem test_tokPush :
    (after (exec (.tokPush 0x35#8) (holding [0x42#8, 0x62#8]))).map (fun t => (token t, statusWord t)) =
      some ([0x42#8, 0x62#8, 0x35#8], 0x00000300#32) := by decide

/-- Vector T3: the 32nd byte is dropped. -/
theorem test_tokPush_full :
    (after (exec (.tokPush 0x42#8) (holding (List.replicate 31 0x41#8)))).map
      (fun t => (token t, statusWord t)) = some (List.replicate 31 0x41#8, 0x00001F00#32) := by decide +kernel

/-- Vector V32: "Cb-1". -/
theorem test_resolve_pitch :
    (after (exec .resolve (holding [0x43#8, 0x62#8, 0x2D#8, 0x31#8]))).map
      (fun t => (t.resKind, t.resNote, t.resFreq, t.lastErr)) =
      some (.pitch, 0xFFFFFFFF#32, 0x40F6F110#32, .ok) := by decide +kernel

/-- Vector V41: "C124" is out of range. -/
theorem test_resolve_range :
    (after (exec .resolve (holding [0x43#8, 0x31#8, 0x32#8, 0x34#8]))).map
      (fun t => (t.resKind, t.resCause, t.resFreq, t.errflags)) =
      some (.invalid, .range, 0x00000000#32, 0b100#3) := by decide +kernel

/-- Vector D2 at 125 MHz: the tie 39062.5 rounds up. -/
theorem test_setTone_tie :
    (fun t => (t.chDiv.toNat, t.chTop.toNat, t.chLevel.toNat, t.chEn)) (setTone 125000000 0x45480000#32 State.reset) =
      (1, 39062, 19531, true) := by decide +kernel

/-- Vector D28: a NaN keeps the channel and the counter. -/
theorem test_setTone_nan :
    (after (exec .setTone { playing with freq := 0x7FC00000#32 })).map
      (fun t => (t.lastErr, t.errflags, t.chEn, t.chTop, t.ctr)) = some (.badFreq, 0b010#3, true, 35510#16, 3#16) := by
  decide

/-- Vector D29. -/
theorem test_silence :
    (after (exec .silence playing)).map (fun t => (t.chEn, toneOut t, t.chDiv, t.chTop, t.chLevel)) =
      some (false, false, 8#9, 35510#16, 17755#17) := by decide

/-- Vector F2 at 125 MHz: "D#4". -/
theorem test_playToken_pitch :
    (fun t => (statusWord t, t.resFreq, t.chDiv.toNat, t.chTop.toNat, t.chLevel.toNat))
      (playToken 125000000 (holding [0x44#8, 0x23#8, 0x34#8])) =
      (0x00000305#32, 0x439B9041#32, 8, 50220, 25110) := by decide +kernel

/-- Vector F5: an invalid token under ERR_SILENCE = 0 keeps the tone. -/
theorem test_playToken_keep :
    (after (exec .playToken { playing with errSilence := false, tokLen := 0 })).map
      (fun t => (t.chEn, t.ctr, t.lastErr, t.resCause)) = some (true, 3#16, .tokenInvalid, .badLetter) := by decide

/-- Vector F11 at 125 MHz. -/
theorem test_keyTone_A :
    (fun t => (t.chDiv.toNat, t.chTop.toNat, t.chLevel.toNat, statusWord t)) (keyTone 125000000 0x41#8 State.reset) =
      (32, 39062, 19531, 0x00000001#32) := by decide +kernel

/-- Vector F13: lower case is not mapped. -/
theorem test_keyTone_lower :
    (after (exec (.keyTone 0x61#8) playing)).map (fun t => (t.chEn, t.chTop)) = some (false, 35510#16) := by decide

/-! ## The port, the timer, the host program -/

/-- The table word of TOK_PUSH 'A' runs as the first command after reset. -/
theorem test_withFetchWord :
    (after (step (State.reset.withFetchWord 32 0x4102))).map (fun t => token t) = some [0x41#8] := by decide

/-- Vector M4. -/
theorem test_write_one_to_clear :
    (after (step { writes 0x08 0x00000002#32 with errflags := 0b111 })).map (fun t => regval t 0x08) =
      some 0x00000005#32 := by decide

/-- Vectors M11 and M12. -/
theorem test_busError :
    after (step (awaiting [.access .host (.write 0x0C 1 0x00000001#32)])) = none ∧ after (step (reads 0x40)) = none := by
  decide

/-- Vector W1 at its fifth edge: CTR wraps from TOP to 0 and TONE_OUT rises. -/
theorem test_timer_wraps :
    (after (step { State.reset with chEn := true, chDiv := 1, chTop := 4, chLevel := 2, ctr := 4 })).map
      (fun t => (t.ctr, t.observed)) = some (0#16, [.toneOut true]) := by decide

/-- A line of program P1, and the strings of R100. -/
theorem test_readLine :
    readLine "TOK_PUSH '#'       ; CMD 0x00002302".toList = some [.command (.tokPush 0x23#8)] ∧
    readLine "PLAY \"\\x0bA4\"".toList = some [.play [0x0B#8, 0x41#8, 0x34#8]] ∧
    readLine "wr ch_top, 0x1234".toList = some [.wr .chTop 0x00001234#32] ∧
    readLine "TOK_PUSH".toList = none := by decide

/-- `TONE 440.0` writes A4's pattern (R100). -/
theorem test_toneDecimal : rne32Rat 4400 10 = 0x43DC0000#32 := by decide +kernel

/-! ## Witnesses -/

theorem playing_inv : StateInv playing := by
  constructor <;> decide

/-- The state with a pitch in the result registers. -/
def resolved : State :=
  { State.reset with resKind := .pitch, resFreq := 0x43DC0000#32, resNote := 69 }

theorem resolved_inv : StateInv resolved := by
  constructor <;> decide +kernel

/-- Periods 0 and 65535, the corners of R216. -/
def lowest : State := { State.reset with chEn := true }

def highest : State := { State.reset with chEn := true, chTop := 65535, chLevel := 32768 }

theorem lowest_inv : StateInv lowest := by
  constructor <;> decide

theorem highest_inv : StateInv highest := by
  constructor <;> decide

/-- One illegal word per clause of R95, and a legal word. -/
theorem witness_IllegalWordReported :
    ∀ w ∈ [0x00010000#32, 0x00000008#32, 0x00000103#32, 0x0000FF07#32],
      (writes 0x0C w).pending = .access .host (.write 0x0C 4 w) :: [] ∧ (writes 0x0C w).inReset = false :=
  fun _ _ => ⟨rfl, rfl⟩

theorem witness_IllegalWordReported_clauses :
    (0x00010000#32).extractLsb' 16 16 ≠ 0#16 ∧ 0x08 ≤ ((0x00000008#32).extractLsb' 0 8).toNat ∧
    ((0x00000103#32).extractLsb' 0 8 ≠ 0x02#8 ∧ (0x00000103#32).extractLsb' 0 8 ≠ 0x07#8 ∧
      (0x00000103#32).extractLsb' 8 8 ≠ 0#8) ∧
    ¬((0x0000FF07#32).extractLsb' 16 16 ≠ 0#16 ∨ 0x08 ≤ ((0x0000FF07#32).extractLsb' 0 8).toNat ∨
      ((0x0000FF07#32).extractLsb' 0 8 ≠ 0x02#8 ∧ (0x0000FF07#32).extractLsb' 0 8 ≠ 0x07#8 ∧
        (0x0000FF07#32).extractLsb' 8 8 ≠ 0#8)) := by decide

theorem witness_StepRunsDecodedCommand :
    (writes 0x0C 0x00004107#32).pending = [.access .host (.write 0x0C 4 0x00004107#32)] ∧
      (writes 0x0C 0x00004107#32).inReset = false ∧ decode 0x00004107#32 = .ok (.keyTone 0x41#8) := by decide

/-- Every clause of the read statement at its offset, and both ends of the reserved range. -/
theorem witness_ReadReturnsRegister :
    ∀ a ∈ [0x00, 0x04, 0x08, 0x0C, 0x10, 0x14, 0x18, 0x1C, 0x20, 0x24, 0x28, 0x3C],
      (reads a).pending = [.access .host (.read a 4)] ∧ (reads a).inReset = false ∧ a % 4 = 0 ∧ a ≤ 0x3C := by decide

theorem witness_WriteEffects :
    ∀ a ∈ [0x00, 0x04, 0x08, 0x0C, 0x10, 0x14, 0x24, 0x28, 0x3C],
      (writes a 0x00000002#32).pending = [.access .host (.write a 4 0x00000002#32)] ∧
      (writes a 0x00000002#32).inReset = false ∧ a % 4 = 0 ∧ a ≤ 0x3C ∧
      decode 0x00000002#32 = .ok (.tokPush 0) := by decide

/-- Admitted at the top of the window; not admitted by offset, by alignment and by width. -/
theorem witness_PortAdmits :
    (reads 0x3C).inReset = false ∧ (reads 0x3C).pending = [.access .host (.read 0x3C 4)] ∧
    (4 = 4 ∧ 0x3C % 4 = 0 ∧ 0x3C ≤ 0x3C) ∧
    ∀ p ∈ [(0x40, 4), (0x3D, 4), (0x0C, 1)], ¬(p.2 = 4 ∧ p.1 % 4 = 0 ∧ p.1 ≤ 0x3C) := by decide

theorem witness_SecondRequesterRefused :
    (awaiting [.access .second (.read 0 4)]).pending = .access .second (.read 0 4) :: [] := by decide

theorem witness_ResetInput :
    (awaiting [.resetAssert]).pending = .resetAssert :: [] ∧
    (awaiting [.resetRelease]).pending = .resetRelease :: [] ∧
    ({ reads 0 with inReset := true } : State).inReset = true ∧
    ({ reads 0 with inReset := true } : State).pending = .access .host (.read 0 4) :: [] := by decide

/-- `playing` with a clock edge to come, at a chosen prescale count and with the channel on or off. -/
def edge (en : Bool) (p : BitVec 8) : State := { playing with pending := [.clockEdge], chEn := en, presc := p }

/-- A disabled channel, and both sides of the prescaler's wrap. -/
theorem witness_ClockEdge :
    (StateInv (edge false 2) ∧ (edge false 2).pending = .clockEdge :: [] ∧ (edge false 2).chEn = false) ∧
    (StateInv (edge true 6) ∧ (edge true 6).pending = .clockEdge :: [] ∧ (edge true 6).chEn = true ∧
      (edge true 6).presc.toNat < (edge true 6).chDiv.toNat - 1) ∧
    (StateInv (edge true 7) ∧ (edge true 7).pending = .clockEdge :: [] ∧ (edge true 7).chEn = true ∧
      (edge true 7).presc.toNat = (edge true 7).chDiv.toNat - 1) := by
  refine ⟨⟨?_, by decide⟩, ⟨?_, by decide⟩, ⟨?_, by decide⟩⟩ <;> constructor <;> decide

theorem witness_IdleIsClockEdge : playing.pending = [] := by decide

theorem witness_Waveform : StateInv playing ∧ playing.chEn = true := ⟨playing_inv, by decide⟩

theorem witness_DisabledChannelHolds : State.reset.chEn = false := by decide

theorem witness_OutputFunction : State.reset.chEn = false := by decide

theorem witness_OutputCorners :
    (StateInv lowest ∧ lowest.chEn = true ∧ lowest.chTop = 0#16) ∧
    (StateInv highest ∧ highest.chEn = true ∧ highest.chTop = 65535#16) ∧
    (StateInv playing ∧ playing.chEn = true ∧ playing.chTop.toNat % 2 = 0) :=
  ⟨⟨lowest_inv, by decide, by decide⟩, ⟨highest_inv, by decide, by decide⟩, ⟨playing_inv, by decide, by decide⟩⟩

theorem witness_TokPushEffect :
    (holding (List.replicate 30 0x41#8)).tokLen.toNat < 31 ∧ (holding (List.replicate 31 0x41#8)).tokLen.toNat = 31 := by
  decide +kernel

theorem witness_TruncationToThirtyOne : State.reset.inReset = false := by decide

/-- Two states that differ in a byte beyond the token. -/
theorem witness_DeadTokenBytesUnread :
    SameLiveToken State.reset { State.reset with tokbuf := State.reset.tokbuf.set 0 0x41#8 } :=
  ⟨rfl, by decide⟩

theorem witness_TrimSpec :
    (trim [0x20#8, 0x41#8, 0x09#8]).head? = some 0x41#8 ∧ (trim [0x20#8, 0x41#8, 0x09#8]).getLast? = some 0x41#8 := by
  decide

/-- " Bb-1\t" has every part of a note token; "A4" has the least. -/
theorem witness_NoteTokensResolve :
    (∀ x ∈ [0x20#8], isSpace x = true) ∧ (∀ x ∈ [0x09#8], isSpace x = true) ∧
    (upper 0x62#8, 11) ∈ [(0x43#8, 0), (0x44#8, 2), (0x45#8, 4), (0x46#8, 5), (0x47#8, 7), (0x41#8, 9), (0x42#8, 11)] ∧
    (([0x62#8] : List Byte), (-1 : Int)) ∈ [([], 0), ([0x23#8], 1), ([0x62#8], -1), ([0x42#8], -1)] ∧
    ([0x31#8] : List Byte) ≠ [] ∧ ∀ d ∈ [0x31#8], 0x30 ≤ d.toNat ∧ d.toNat ≤ 0x39 := by decide

/-- A pitch, a token out of range, and one that starts with a note letter and is neither. -/
theorem witness_OnlyNoteTokensResolve :
    (resolve [0x43#8, 0x2B#8, 0x34#8]).cause = .badOctave ∧ (resolve [0x41#8, 0x34#8]).kind = .pitch ∧ (resolve [0x43#8, 0x31#8, 0x32#8, 0x34#8]).cause = .range := by
  decide +kernel

/-- A comparison with any real, for the three ranges of `rne32`. -/
theorem witness_Rne32Correct (x : ℝ) :
    ∃ cmp : Nat → Int → Ordering, ∀ (m : Nat) (e : Int),
      (cmp m e = .lt ↔ (m : ℝ) * (2 : ℝ) ^ e < x) ∧ (cmp m e = .eq ↔ (m : ℝ) * (2 : ℝ) ^ e = x) := by
  classical
  refine ⟨fun m e => if (m : ℝ) * (2 : ℝ) ^ e < x then .lt else if (m : ℝ) * (2 : ℝ) ^ e = x then .eq else .gt, ?_⟩
  intro m e
  by_cases h1 : (m : ℝ) * (2 : ℝ) ^ e < x
  · simp [h1, h1.ne]
  · by_cases h2 : (m : ℝ) * (2 : ℝ) ^ e = x <;> simp [h1, h2]

theorem witness_Rne32Correct_ranges :
    (0 : ℝ) < (2 : ℝ) ^ (128 : ℤ) ∧ (2 : ℝ) ^ (128 : ℤ) * (1 - (2 : ℝ) ^ (-25 : ℤ)) ≤ (2 : ℝ) ^ (128 : ℤ) ∧
    (0 : ℝ) < (2 : ℝ) ^ (-150 : ℤ) ∧ (2 : ℝ) ^ (-150 : ℤ) ≤ (2 : ℝ) ^ (-150 : ℤ) ∧
    (2 : ℝ) ^ (-150 : ℤ) < 1 ∧ (1 : ℝ) < (2 : ℝ) ^ (128 : ℤ) * (1 - (2 : ℝ) ^ (-25 : ℤ)) := by
  norm_num

/-- n = 69 lies in the middle range, n = 1569 above it and n = −2331 below it. -/
theorem witness_FreqFnCorrectlyRounded :
    (2 : ℝ) ^ (-150 : ℤ) < 440 * (2 : ℝ) ^ (((69 : ℤ) - 69 : ℝ) / 12) ∧
    440 * (2 : ℝ) ^ (((69 : ℤ) - 69 : ℝ) / 12) < (2 : ℝ) ^ (128 : ℤ) * (1 - (2 : ℝ) ^ (-25 : ℤ)) ∧
    (2 : ℝ) ^ (128 : ℤ) * (1 - (2 : ℝ) ^ (-25 : ℤ)) ≤ 440 * (2 : ℝ) ^ (((1569 : ℤ) - 69 : ℝ) / 12) ∧
    440 * (2 : ℝ) ^ ((((-2331 : ℤ) : ℝ) - 69) / 12) ≤ (2 : ℝ) ^ (-150 : ℤ) := by
  have h0 : (((69 : ℤ) - 69 : ℝ) / 12) = ((0 : ℤ) : ℝ) := by norm_num
  have h1 : (((1569 : ℤ) - 69 : ℝ) / 12) = ((125 : ℤ) : ℝ) := by norm_num
  have h2 : ((((-2331 : ℤ) : ℝ) - 69) / 12) = ((-200 : ℤ) : ℝ) := by norm_num
  rw [h0, h1, h2, Real.rpow_intCast, Real.rpow_intCast, Real.rpow_intCast]
  norm_num

/-- Both ends of the audio range. -/
theorem witness_FreqFnProperties :
    ((-1 : ℤ) ≤ -1 ∧ (-1 : ℤ) ≤ 135) ∧ ((-1 : ℤ) ≤ 135 ∧ (135 : ℤ) ≤ 135) ∧ (-1 : Int) ≤ 135 := by decide

/-- 'a' and 'z' are mapped; the bytes next to them are not. -/
theorem witness_RestTokens :
    upper 0x61#8 = 0x41#8 ∧ upper 0x7A#8 = 0x5A#8 ∧ upper 0x60#8 = 0x60#8 ∧ upper 0x7B#8 = 0x7B#8 := by decide

theorem witness_OctaveDoubles :
    ((-1548 : Int) ≤ -1548 ∧ (-1548 : Int) + 12 ≤ 1487) ∧ ((-1548 : Int) ≤ 1475 ∧ (1475 : Int) + 12 ≤ 1487) ∧
    ((-134 : Int) ≤ -134 ∧ (119 : Int) ≤ 119) := by decide

/-- A pitch, a rest and an invalid token. -/
theorem witness_ResolveEffect :
    (resolve (token (holding [0x41#8, 0x34#8]))).kind = .pitch ∧ (resolve (token (holding [0x72#8]))).kind = .rest ∧
    (resolve (token State.reset)).kind = .invalid := by decide +kernel

theorem witness_CandidateExact : 0 < 1 ∧ isPosFinite 0x00000001#32 = true ∧ isPosFinite 0x7F7FFFFF#32 = true := by decide

theorem f32Val_440 : f32Val 0x43DC0000#32 = 440 := by decide +kernel

/-- 440 Hz at 125 MHz lies between the two clamps. -/
theorem witness_WhichDivider :
    0 < 125000000 ∧ isPosFinite 0x43DC0000#32 = true ∧ f32Val 0x43DC0000#32 ≤ 2 * ((125000000 : ℕ) : ℚ) ∧
    ((125000000 : ℕ) : ℚ) / 16777344 < f32Val 0x43DC0000#32 := by
  rw [f32Val_440]
  norm_num
  decide

theorem f32Val_one : f32Val 0x3F800000#32 = 1 := by decide +kernel

/-- Both clamps: 1 Hz at a clock of 125 MHz (vector D11), and 440 Hz at a clock of 1 Hz. -/
theorem witness_WhichDivider_clamps :
    (isPosFinite 0x3F800000#32 = true ∧ f32Val 0x3F800000#32 ≤ ((125000000 : ℕ) : ℚ) / 16777344) ∧
    (isPosFinite 0x43DC0000#32 = true ∧ 2 * ((1 : ℕ) : ℚ) < f32Val 0x43DC0000#32) := by
  rw [f32Val_one, f32Val_440]
  norm_num
  decide

theorem witness_DecodedFrequencyError :
    0 < 125000000 ∧ isPosFinite 0x43DC0000#32 = true ∧ f32Val 0x43DC0000#32 ≤ 2 * ((125000000 : ℕ) : ℚ) ∧
    ((125000000 : ℕ) : ℚ) / 16777344 < f32Val 0x43DC0000#32 := witness_WhichDivider

/-- The clamp's program at the bounds; the same program on an enabled channel, and another. -/
theorem witness_ProgramEffect :
    256 ≤ 256 ∧ 65535 ≤ 65535 ∧
    (playing.chEn = true ∧ playing.chDiv.toNat = 8 ∧ playing.chTop.toNat = 35510 ∧
      playing.chLevel.toNat = (35510 + 1) / 2) ∧
    ¬(playing.chEn = true ∧ playing.chDiv.toNat = 256 ∧ playing.chTop.toNat = 65535 ∧
      playing.chLevel.toNat = (65535 + 1) / 2) := by decide

/-- Both ends of every class of R141: +∞ and NaNs; +0.0, −0.0 and −∞; the least and the greatest positive finite. -/
theorem witness_SetToneEffect :
    ((0x7F800001#32).extractLsb' 23 8 = 0xFF#8 ∧ (0x7F800001#32).extractLsb' 0 23 ≠ 0#23) ∧
    ((0xFFFFFFFF#32).extractLsb' 23 8 = 0xFF#8 ∧ (0xFFFFFFFF#32).extractLsb' 0 23 ≠ 0#23) ∧
    (0x80000000 ≤ (0x80000000#32).toNat ∧ (0xFF800000#32).toNat ≤ 0xFF800000) ∧
    (0x00000001 ≤ (0x00000001#32).toNat ∧ (0x7F7FFFFF#32).toNat ≤ 0x7F7FFFFF) := by decide

theorem witness_PlayTokenEffect :
    (resolve (token (holding [0x41#8, 0x34#8]))).kind = .pitch ∧ (resolve (token (holding [0x72#8]))).kind = .rest ∧
    (resolve (token State.reset)).kind = .invalid ∧ State.reset.errSilence = true ∧
    (resolve (token { State.reset with errSilence := false })).kind = .invalid := by decide +kernel

/-- A mapped key, and the bytes on both sides of the mapped range. -/
theorem witness_KeyToneEffect :
    (0x41#8, 0x42C80000#32) ∈ [(0x41#8, 0x42C80000#32), (0x42#8, 0x43480000#32), (0x43#8, 0x43960000#32),
      (0x44#8, 0x43C80000#32), (0x45#8, 0x43FA0000#32)] ∧
    (0x40#8).toNat < 0x41 ∧ 0x45 < (0x46#8).toNat := by decide

theorem witness_PlayText : State.reset.inReset = false := by decide

theorem witness_WhoWritesWhat : exec .nop State.reset = .next State.reset := rfl

/-- SILENCE, SET_TONE on +0.0, PLAY_TOKEN on an invalid token after reset and an unmapped key all silence. -/
theorem witness_SilencingImmediate :
    exec .silence playing = .next { playing with chEn := false } ∧
    (∃ t, exec .setTone State.reset = .next t ∧ State.reset.freq = 0x00000000#32) ∧
    (∃ t, exec .playToken State.reset = .next t ∧ (resolve (token State.reset)).kind = .invalid ∧
      State.reset.errSilence = true) ∧
    (∃ t, exec (.keyTone 0x40#8) playing = .next t ∧ (0x40#8).toNat < 0x41) :=
  ⟨rfl, ⟨_, rfl, by decide⟩, ⟨_, rfl, by decide, by decide⟩, ⟨_, rfl, by decide⟩⟩

theorem witness_NewToneStartsCycle :
    ∃ t, exec (.keyTone 0x41#8) State.reset = .next t ∧ t.chEn = true ∧ State.reset.chEn = false := by
  refine ⟨_, rfl, ?_, by decide⟩
  simp only [keyTone, keyFreq, if_true, setLastErr, searchAndProgram, program]
  split <;> rfl

theorem witness_StepKeepsInv : StateInv playing ∧ ∃ t, step playing = .next t := ⟨playing_inv, _, rfl⟩

theorem witness_PitchNoteInRange : StateInv resolved ∧ resolved.resKind = .pitch := ⟨resolved_inv, by decide⟩

/-- Two states in different phases that the host cannot tell apart by reading. -/
theorem witness_TimerUnreadable :
    SameForReader playing { playing with ctr := 0, presc := 0, observed := [.toneOut true] } := ⟨rfl, by decide⟩

end Sys2Proof.Tests
end

