-- ==== Sys2Proof/Proofs/Rounding.lean ====
section
/-! O30: `rne32` (R13). The non-negative patterns, read as numbers q = 0, 1, 2, …, are a strictly increasing grid of
values, also across the exponent steps; `rne32` finds the pattern whose two neighbouring midpoints enclose the real. -/

namespace Sys2Proof.Machine

/-! ## The grid of non-negative patterns -/

/-- The significand of the q-th non-negative pattern; past the top of binary32 the grid goes on in the same way. -/
def gridSignificand (q : Nat) : Nat := if q / 2 ^ 23 = 0 then q % 2 ^ 23 else 2 ^ 23 + q % 2 ^ 23

/-- The exponent that goes with `gridSignificand`. -/
def gridScale (q : Nat) : Int := (max (q / 2 ^ 23) 1 : Nat) - 150

/-- The value of the q-th non-negative pattern; +∞ counts as 2^128. -/
noncomputable def gridValue (q : Nat) : ℝ := gridSignificand q * (2 : ℝ) ^ gridScale q

/-- The midpoint between the q-th pattern and the next one up. -/
noncomputable def gridMid (q : Nat) : ℝ := (gridValue q + gridValue (q + 1)) / 2

theorem f32Exp_ofNat {q : Nat} (h : q < 2 ^ 31) : f32Exp (BitVec.ofNat 32 q) = q / 2 ^ 23 := by
  simp only [f32Exp, BitVec.extractLsb'_toNat, BitVec.toNat_ofNat, Nat.shiftRight_eq_div_pow]
  omega

theorem f32Frac_ofNat (q : Nat) : f32Frac (BitVec.ofNat 32 q) = q % 2 ^ 23 := by
  simp only [f32Frac, BitVec.extractLsb'_toNat, BitVec.toNat_ofNat, Nat.shiftRight_zero]
  omega

theorem f32Sign_ofNat {q : Nat} (h : q < 2 ^ 31) : f32Sign (BitVec.ofNat 32 q) = false := by
  simp only [f32Sign, BitVec.getLsbD_ofNat, Nat.testBit_lt_two_pow h, Bool.and_false]

theorem significand_ofNat {q : Nat} (h : q < 2 ^ 31) : significand (BitVec.ofNat 32 q) = gridSignificand q := by
  simp only [significand, gridSignificand, f32Exp_ofNat h, f32Frac_ofNat]

theorem scale_ofNat {q : Nat} (h : q < 2 ^ 31) : scale (BitVec.ofNat 32 q) = gridScale q := by
  simp only [scale, gridScale, f32Exp_ofNat h]

/-- val(b) of R13 with its integer significand, for a pattern without the sign bit. -/
theorem f32Val_eq_significand {b : Word} (h : f32Sign b = false) :
    f32Val b = significand b * (2 : ℚ) ^ scale b := by
  by_cases he : f32Exp b = 0
  · simp only [f32Val, significand, scale, h, he]
    norm_num
    ring
  · have hs : ((max (f32Exp b) 1 : ℕ) : ℤ) - 150 = ((f32Exp b : ℤ) - 127) - 23 := by omega
    simp only [f32Val, significand, scale, h, he, hs, if_false, zpow_sub₀ (two_ne_zero (α := ℚ)) _ 23]
    push_cast
    norm_num
    ring

theorem f32Val_ofNat {q : Nat} (h : q < 2 ^ 31) : ((f32Val (BitVec.ofNat 32 q) : ℚ) : ℝ) = gridValue q := by
  rw [f32Val_eq_significand (f32Sign_ofNat h), significand_ofNat h, scale_ofNat h, gridValue]
  push_cast
  rfl

/-- One pattern up is one unit of the last place up, also from the last fraction of an exponent to the next exponent. -/
theorem gridValue_succ (q : Nat) : gridValue (q + 1) = (gridSignificand q + 1) * (2 : ℝ) ^ gridScale q := by
  by_cases hf : q % 2 ^ 23 + 1 < 2 ^ 23
  · have hd : (q + 1) / 2 ^ 23 = q / 2 ^ 23 := by omega
    have hm : (q + 1) % 2 ^ 23 = q % 2 ^ 23 + 1 := by omega
    simp only [gridValue, gridSignificand, gridScale, hd, hm]
    split <;> push_cast <;> ring
  · have hd : (q + 1) / 2 ^ 23 = q / 2 ^ 23 + 1 := by omega
    have hm : (q + 1) % 2 ^ 23 = 0 := by omega
    have hq : q % 2 ^ 23 = 2 ^ 23 - 1 := by omega
    by_cases h0 : q / 2 ^ 23 = 0
    · simp only [gridValue, gridSignificand, gridScale, hd, hm, hq, h0]
      norm_num
    · have hs : ((max (q / 2 ^ 23 + 1) 1 : ℕ) : ℤ) - 150 = ((max (q / 2 ^ 23) 1 : ℕ) : ℤ) - 150 + 1 := by omega
      simp only [gridValue, gridSignificand, gridScale, hd, hm, hq, hs, h0, zpow_add_one₀ (two_ne_zero (α := ℝ))]
      norm_num
      ring

theorem gridValue_strictMono : StrictMono gridValue := by
  refine strictMono_nat_of_lt_succ fun q => ?_
  rw [gridValue_succ, gridValue]
  gcongr
  exact lt_add_one _

theorem gridMid_strictMono : StrictMono gridMid := fun p q h => by
  have h1 := gridValue_strictMono h
  have h2 := gridValue_strictMono (Nat.succ_lt_succ h)
  simp only [gridMid]
  linarith

/-- The midpoint as `roundsAbove` hands it to the comparison. -/
theorem gridMid_eq (q : Nat) : gridMid q = (2 * gridSignificand q + 1 : ℕ) * (2 : ℝ) ^ (gridScale q - 1) := by
  rw [gridMid, gridValue_succ, gridValue, zpow_sub_one₀ two_ne_zero]
  push_cast
  ring

/-- The bound up to which R13 rounds to +0.0. -/
theorem gridMid_zero : gridMid 0 = (2 : ℝ) ^ (-150 : ℤ) := by
  rw [gridMid_eq]
  norm_num [gridSignificand, gridScale]

/-- The bound from which R13 rounds to +∞. -/
theorem gridMid_last : gridMid (infPattern - 1) = (2 : ℝ) ^ (128 : ℤ) * (1 - (2 : ℝ) ^ (-25 : ℤ)) := by
  rw [gridMid_eq]
  norm_num [gridSignificand, gridScale, infPattern]

/-! ## What the search finds -/

/-- The pattern found is a place where `above` changes: it holds just below (or nothing was added), and fails at the
pattern itself (or that is the top). Whether `above` is monotone does not matter. -/
theorem searchPattern_boundary (above : Nat → Bool) (k acc : Nat)
    (hlo : acc = 0 ∨ above (acc - 1) = true)
    (hhi : infPattern < acc + 2 ^ k ∨ above (acc + 2 ^ k - 1) = false) :
    (searchPattern above k acc = 0 ∨ above (searchPattern above k acc - 1) = true) ∧
    (infPattern ≤ searchPattern above k acc ∨ above (searchPattern above k acc) = false) := by
  induction k generalizing acc with
  | zero => exact ⟨hlo, hhi.imp_left Nat.lt_succ_iff.mp⟩
  | succ k ih =>
    simp only [searchPattern]
    split
    case isTrue hc =>
      simp only [Bool.and_eq_true, decide_eq_true_eq] at hc
      refine ih _ (.inr hc.2) ?_
      rwa [add_assoc, ← two_mul, ← pow_succ']
    case isFalse hc =>
      refine ih _ hlo ?_
      simpa [imp_iff_not_or] using hc

/-- `cmp` says how the dyadic numbers compare with x. -/
def ComparesWith (cmp : Nat → Int → Ordering) (x : ℝ) : Prop :=
  ∀ (m : Nat) (e : Int), (cmp m e = .lt ↔ (m : ℝ) * (2 : ℝ) ^ e < x) ∧ (cmp m e = .eq ↔ (m : ℝ) * (2 : ℝ) ^ e = x)

section
variable {cmp : Nat → Int → Ordering} {x : ℝ} (hcmp : ComparesWith cmp x)
include hcmp

theorem roundsAbove_iff {q : Nat} (h : q < 2 ^ 31) :
    roundsAbove cmp q = true ↔ gridMid q < x ∨ (gridMid q = x ∧ q % 2 = 1) := by
  obtain ⟨hlt, heq⟩ := hcmp (2 * gridSignificand q + 1) (gridScale q - 1)
  rw [← gridMid_eq] at hlt heq
  rw [← hlt, ← heq]
  simp only [roundsAbove, significand_ofNat h, scale_ofNat h]
  cases cmp (2 * gridSignificand q + 1) (gridScale q - 1) <;> simp

/-- `rne32` answers the pattern whose neighbouring midpoints enclose x; it lies on one of them only when it is even. -/
theorem rne32_enclosed :
    ∃ r, r ≤ infPattern ∧ rne32 cmp = BitVec.ofNat 32 r ∧
      (r ≠ 0 → gridMid (r - 1) ≤ x ∧ (gridMid (r - 1) = x → r % 2 = 0)) ∧
      (r ≠ infPattern → x ≤ gridMid r ∧ (gridMid r = x → r % 2 = 0)) := by
  have hr : searchPattern (roundsAbove cmp) 31 0 ≤ infPattern := searchPattern_le _ _ _ (Nat.zero_le _)
  obtain ⟨hlo, hhi⟩ := searchPattern_boundary (roundsAbove cmp) 31 0 (.inl rfl) (.inl (by decide))
  refine ⟨_, hr, rfl, ?_⟩
  generalize searchPattern (roundsAbove cmp) 31 0 = r at hr hlo hhi
  have hinf : infPattern = 0x7F800000 := rfl
  refine ⟨fun h0 => ?_, fun hi => ?_⟩
  · rcases (roundsAbove_iff hcmp (by omega)).mp (hlo.resolve_left h0) with h | ⟨h, hodd⟩
    · exact ⟨h.le, fun he => absurd he h.ne⟩
    · exact ⟨h.le, fun _ => by omega⟩
  · have hn := hhi.resolve_left (by omega)
    rw [← Bool.not_eq_true, roundsAbove_iff hcmp (by omega), not_or, not_lt, not_and] at hn
    exact ⟨hn.1, fun he => by have := hn.2 he; omega⟩

theorem rne32_eq_inf (hx : gridMid (infPattern - 1) ≤ x) : rne32 cmp = 0x7F800000#32 := by
  obtain ⟨r, hr, hrne, -, hhi⟩ := rne32_enclosed hcmp
  by_cases hi : r = infPattern
  · rw [hrne, hi]
    rfl
  · obtain ⟨hle, heven⟩ := hhi hi
    have hge : infPattern - 1 ≤ r := gridMid_strictMono.le_iff_le.mp (hx.trans hle)
    have hlast : r = infPattern - 1 := by omega
    have := heven (le_antisymm (hlast ▸ hx) hle)
    rw [hlast] at this
    exact absurd this (by decide)

theorem rne32_eq_zero (hx : x ≤ gridMid 0) : rne32 cmp = 0x00000000#32 := by
  obtain ⟨r, -, hrne, hlo, -⟩ := rne32_enclosed hcmp
  by_cases h0 : r = 0
  · rw [hrne, h0]
  · obtain ⟨hle, heven⟩ := hlo h0
    have hfirst : r - 1 ≤ 0 := gridMid_strictMono.le_iff_le.mp (hle.trans hx)
    have hr : r = 1 := by omega
    subst hr
    exact absurd (heven (le_antisymm hle hx)) (by decide)

theorem rne32_finite (h0 : gridMid 0 < x) (hi : x < gridMid (infPattern - 1)) :
    ∃ r, 0 < r ∧ r < infPattern ∧ rne32 cmp = BitVec.ofNat 32 r ∧
      gridMid (r - 1) ≤ x ∧ x ≤ gridMid r ∧ (gridMid (r - 1) = x ∨ gridMid r = x → r % 2 = 0) := by
  obtain ⟨r, hr, hrne, hlo, hhi⟩ := rne32_enclosed hcmp
  have hr0 : r ≠ 0 := by
    rintro rfl
    exact absurd (hhi (by decide)).1 (not_le.mpr h0)
  have hri : r ≠ infPattern := by
    rintro rfl
    exact absurd (hlo hr0).1 (not_le.mpr hi)
  obtain ⟨hle, hel⟩ := hlo hr0
  obtain ⟨hge, heg⟩ := hhi hri
  exact ⟨r, by omega, by omega, hrne, hle, hge, fun h => h.elim hel heg⟩

end

/-! ## Nearest, ties to even -/

/-- Of two numbers the one on x's side of their midpoint is nearer to x. -/
theorem abs_sub_lt_abs_sub_iff (g h x : ℝ) : |g - x| < |h - x| ↔ 0 < (h - g) * (h + g - 2 * x) := by
  rw [← sq_lt_sq, ← sub_pos]
  ring_nf

theorem abs_sub_eq_of_midpoint {g h x : ℝ} (hx : h + g = 2 * x) : |g - x| = |h - x| := by
  rw [abs_sub_comm, show x - g = h - x by linarith]

/-- A pattern whose neighbouring midpoints enclose x is nearer to x than any other, unless x is one of the two. -/
theorem gridValue_nearest {r p : Nat} {x : ℝ} (h0 : 0 < r) (hlo : gridMid (r - 1) ≤ x) (hhi : x ≤ gridMid r)
    (hne : p ≠ r) :
    |gridValue r - x| < |gridValue p - x| ∨
      (|gridValue r - x| = |gridValue p - x| ∧ (gridMid (r - 1) = x ∨ gridMid r = x)) := by
  have hbelow : gridMid (r - 1) = (gridValue (r - 1) + gridValue r) / 2 := by rw [gridMid, Nat.sub_add_cancel h0]
  rw [hbelow] at hlo ⊢
  rw [gridMid] at hhi ⊢
  rw [abs_sub_lt_abs_sub_iff]
  rcases lt_or_gt_of_ne hne with hp | hp
  · have hlt := gridValue_strictMono hp
    have hle := gridValue_strictMono.monotone (Nat.le_sub_one_of_lt hp)
    rcases (show gridValue p + gridValue r ≤ 2 * x by linarith).lt_or_eq with h | h
    · exact .inl (mul_pos_of_neg_of_neg (by linarith) (by linarith))
    · exact .inr ⟨abs_sub_eq_of_midpoint h, .inl (by linarith)⟩
  · have hlt := gridValue_strictMono hp
    have hle := gridValue_strictMono.monotone (Nat.succ_le_of_lt hp)
    rcases (show 2 * x ≤ gridValue p + gridValue r by linarith).lt_or_eq with h | h
    · exact .inl (mul_pos (by linarith) (by linarith))
    · exact .inr ⟨abs_sub_eq_of_midpoint h.symm, .inr (by linarith)⟩

theorem isPosFinite_iff (b : Word) : isPosFinite b = true ↔ 0 < b.toNat ∧ b.toNat < infPattern := by
  simp only [isPosFinite, infPattern, Bool.and_eq_true, decide_eq_true_eq]
  omega

theorem toNat_lt_of_zero_or_isPosFinite {b : Word} (h : b = 0x00000000#32 ∨ isPosFinite b = true) :
    b.toNat < infPattern := by
  rcases h with rfl | h
  · decide
  · exact ((isPosFinite_iff b).mp h).2

/-- Settles O30: the midpoints around the found pattern decide all three ranges. -/
theorem rne32Correct : Obligations.Rne32Correct := by
  intro x cmp _ hcmp
  rw [← gridMid_zero, ← gridMid_last]
  refine ⟨rne32_eq_inf hcmp, rne32_eq_zero hcmp, fun h0 hi => ?_⟩
  obtain ⟨r, hr0, hri, hrne, hlo, hhi, heven⟩ := rne32_finite hcmp h0 hi
  have hinf : infPattern < 2 ^ 31 := by decide
  rw [hrne, isPosFinite_iff, BitVec.toNat_ofNat, Nat.mod_eq_of_lt (by omega)]
  refine ⟨⟨hr0, hri⟩, fun b hb hne => ?_⟩
  have hbi := toNat_lt_of_zero_or_isPosFinite hb
  have hbr : b.toNat ≠ r := fun h => hne (by rw [← h, BitVec.ofNat_toNat, BitVec.setWidth_eq])
  have hbv : ((f32Val b : ℚ) : ℝ) = gridValue b.toNat := by
    rw [← f32Val_ofNat (hbi.trans hinf), BitVec.ofNat_toNat, BitVec.setWidth_eq]
  rw [hbv, f32Val_ofNat (hri.trans hinf), f32Frac_ofNat]
  exact (gridValue_nearest hr0 hlo hhi hbr).imp_right fun ⟨heq, htie⟩ => ⟨heq, by have := heven htie; omega⟩

end Sys2Proof.Machine
end

