-- ==== Sys2Proof/Proofs/Commands.lean ====
section
/-! O5, O7, O49: the decoded command a step runs, the fields of STATUS, and what each command leaves unchanged. -/

namespace Sys2Proof.Machine

/-- A count below its width's end does not wrap. -/
theorem toNat_add_one_of_lt {w : Nat} {x : BitVec w} (h : x.toNat + 1 < 2 ^ w) : (x + 1).toNat = x.toNat + 1 := by
  have hone : (1 : BitVec w).toNat = 1 := Nat.mod_eq_of_lt (Nat.lt_of_le_of_lt (Nat.le_add_left 1 _) h)
  rw [BitVec.toNat_add, hone, Nat.mod_eq_of_lt h]

/-! ## STATUS -/

theorem toNat_append_eq_add {m n : Nat} (x : BitVec m) (y : BitVec n) :
    (x ++ y).toNat = x.toNat * 2 ^ n + y.toNat := by
  rw [BitVec.toNat_append, ← Nat.shiftLeft_add_eq_or_of_lt y.isLt, Nat.shiftLeft_eq]

theorem statusWord_toNat (s : State) :
    (statusWord s).toNat = s.chEn.toNat + 2 * (kindCode s.resKind).toNat + 8 * (causeCode s.resCause).toNat +
        256 * s.tokLen.toNat + 65536 * (errCode s.lastErr).toNat := by
  rw [statusWord]
  iterate 7 rw [toNat_append_eq_add]
  simp only [BitVec.toNat_ofNat, BitVec.toNat_ofBool]
  omega

theorem statusWord_extractLsb'_eq_iff (s : State) {start len : Nat} {v : BitVec len} :
    (statusWord s).extractLsb' start len = v ↔
      (s.chEn.toNat + 2 * (kindCode s.resKind).toNat + 8 * (causeCode s.resCause).toNat + 256 * s.tokLen.toNat +
        65536 * (errCode s.lastErr).toNat) / 2 ^ start % 2 ^ len = v.toNat := by
  rw [← BitVec.toNat_inj, BitVec.extractLsb'_toNat, Nat.shiftRight_eq_div_pow, statusWord_toNat]

/-- Settles O7: the fields' widths keep the terms of STATUS's sum apart. -/
theorem statusFields : Obligations.StatusFields := by
  intro s
  have hen : (if s.chEn then 1#1 else 0#1).toNat = s.chEn.toNat := by cases s.chEn <;> rfl
  have hlt : s.chEn.toNat < 2 := s.chEn.toNat_lt
  have hkind := (kindCode s.resKind).isLt
  have hcause := (causeCode s.resCause).isLt
  have hlen := s.tokLen.isLt
  have herr := (errCode s.lastErr).isLt
  have field {start len : Nat} {v : BitVec len} := (statusWord_extractLsb'_eq_iff s (start := start) (v := v)).mpr
  have hzero3 : (0#3).toNat = 0 := rfl
  have hzero12 : (0#12).toNat = 0 := rfl
  refine ⟨field ?_, field (v := kindCode s.resKind) ?_, field (v := causeCode s.resCause) ?_, field ?_, field ?_,
    field ?_, field (v := errCode s.lastErr) ?_, field ?_⟩
  all_goals omega
/-! ## One event, one command -/

theorem step_of_pending {s : State} {e : Event} {es : List Event} (h : s.pending = e :: es) :
    step s = onEvent e (setPending es s) := by
  simp only [step, runNext, h]

theorem onAccess_host_write {s : State} {a : Nat} (v : Word) (hr : s.inReset = false) (ha : admitted a 4 = true) :
    onAccess .host (.write a 4 v) s = memWrite a v s := by
  simp [onAccess, accessOffset, accessSize, hr, ha]

theorem writeCmd_of_decode {w : Word} {i : Instr} (s : State) (h : decode w = .ok i) : writeCmd w s = exec i s := by
  simp only [writeCmd, h]

/-- Settles O5: the write is admitted, falls on CMD, and decodes. -/
theorem stepRunsDecodedCommand : Obligations.StepRunsDecodedCommand := by
  intro s w i rest hp hr hd
  calc step s = onAccess .host (.write 0x0C 4 w) (setPending rest s) := step_of_pending hp
    _ = writeCmd w (setPending rest s) := onAccess_host_write w hr (by decide)
    _ = exec i (setPending rest s) := writeCmd_of_decode _ hd

/-- The state a command leaves: no command stops (R196). -/
def afterCommand : Instr → State → State
  | .nop, s => setLastErr .ok s
  | .tokClear, s => setLastErr .ok (clearToken s)
  | .tokPush b, s => setLastErr .ok (pushToken b s)
  | .resolve, s => commitResult (resolve (token s)) s
  | .setTone, s => setTone Config.sysClkHz s.freq s
  | .silence, s => setLastErr .ok (silence s)
  | .playToken, s => playToken Config.sysClkHz s
  | .keyTone b, s => keyTone Config.sysClkHz b s

theorem exec_eq_afterCommand (i : Instr) (s : State) : exec i s = .next (afterCommand i s) := by
  cases i <;> rfl

theorem exec_next_iff {i : Instr} {s t : State} : exec i s = .next t ↔ t = afterCommand i s := by
  rw [exec_eq_afterCommand, Host.Outcome.next.injEq, eq_comm]

/-! ## Frames -/

/-- Only the token and its length can differ after a byte is appended. -/
theorem pushToken_frame (b : Byte) (s : State) :
    pushToken b s = { s with tokLen := (pushToken b s).tokLen, tokbuf := (pushToken b s).tokbuf } := by
  by_cases h : s.tokLen.toNat < Config.tokenCap
  · rw [pushToken_of_lt b s h]
  · rw [pushToken_of_full b s h]

/-- Only the channel, its counter and the error record can differ after SET_TONE. -/
theorem setTone_frame (clk : Nat) (f : Word) (s : State) :
    setTone clk f s =
      { s with
        chDiv := (setTone clk f s).chDiv, chTop := (setTone clk f s).chTop, chLevel := (setTone clk f s).chLevel
        chEn := (setTone clk f s).chEn, ctr := (setTone clk f s).ctr, presc := (setTone clk f s).presc
        lastErr := (setTone clk f s).lastErr, errflags := (setTone clk f s).errflags } := by
  simp only [setTone]
  split
  · rfl
  · rfl
  · rw [searchAndProgram_frame]
    rfl

/-- Only the channel, its counter and LAST_ERR can differ after KEY_TONE. -/
theorem keyTone_frame (clk : Nat) (b : Byte) (s : State) :
    keyTone clk b s =
      { s with
        chDiv := (keyTone clk b s).chDiv, chTop := (keyTone clk b s).chTop, chLevel := (keyTone clk b s).chLevel
        chEn := (keyTone clk b s).chEn, ctr := (keyTone clk b s).ctr, presc := (keyTone clk b s).presc
        lastErr := (keyTone clk b s).lastErr } := by
  simp only [keyTone]
  split
  · rw [searchAndProgram_frame]
    rfl
  · rfl

/-- Only the results, the channel, its counter and the error record can differ after PLAY_TOKEN. -/
theorem playToken_frame (clk : Nat) (s : State) :
    playToken clk s =
      { s with
        resKind := (playToken clk s).resKind, resCause := (playToken clk s).resCause
        resNote := (playToken clk s).resNote, resFreq := (playToken clk s).resFreq
        chDiv := (playToken clk s).chDiv, chTop := (playToken clk s).chTop, chLevel := (playToken clk s).chLevel
        chEn := (playToken clk s).chEn, ctr := (playToken clk s).ctr, presc := (playToken clk s).presc
        lastErr := (playToken clk s).lastErr, errflags := (playToken clk s).errflags } := by
  simp only [playToken]
  generalize resolve (token s) = r
  rw [driveChannel_frame, commitResult_frame]

/-- Only the counter can differ after a step of the timer. -/
theorem timerStep_frame (s : State) :
    timerStep s = { s with ctr := (timerStep s).ctr, presc := (timerStep s).presc } := by
  simp only [timerStep]
  split
  · split <;> rfl
  · rfl

/-- Settles O49: the frame of each command's operation. -/
theorem whoWritesWhat : Obligations.WhoWritesWhat := by
  intro i s t h
  rw [exec_next_iff] at h
  subst h
  cases i with
  | nop => simp [afterCommand]
  | tokClear => simp [afterCommand, clearToken]
  | tokPush b => rw [afterCommand, pushToken_frame]; simp
  | resolve => rw [afterCommand, commitResult_frame]; simp
  | setTone => rw [afterCommand, setTone_frame]; simp
  | silence => simp [afterCommand, silence]
  | playToken => rw [afterCommand, playToken_frame]; simp
  | keyTone b => rw [afterCommand, keyTone_frame]; simp

end Sys2Proof.Machine
end

