-- ==== Sys2Proof/Proofs/Noninterference.lean ====
section
/-! O23, O55: what no step reads. One theorem says when a relation between states is kept by every step; the two
statements are its two instances. -/

namespace Sys2Proof.Machine

/-! ## Relations that every step keeps -/

/-- The state s with the token, the counter and the observations of h. -/
def withHidden (h s : State) : State :=
  { s with tokLen := h.tokLen, tokbuf := h.tokbuf, ctr := h.ctr, presc := h.presc, observed := h.observed }

/-- An operation that neither reads nor writes the token, the counter and the observations. -/
def IgnoresHidden (f : State → State) : Prop := ∀ h s, f (withHidden h s) = withHidden h (f s)

theorem setLastErr_ignoresHidden (e : ErrCode) : IgnoresHidden (setLastErr e) := fun _ _ => rfl

theorem enableProgram_ignoresHidden (d : BitVec 9) (p : BitVec 16) (l : BitVec 17) :
    IgnoresHidden fun s => setChEn true (setProgram d p l s) := fun _ _ => rfl

theorem report_ignoresHidden (e : ErrCode) : IgnoresHidden (report e) := fun _ _ => rfl

theorem silence_ignoresHidden : IgnoresHidden silence := fun _ _ => rfl

theorem setPending_ignoresHidden (es : List Event) : IgnoresHidden (setPending es) := fun _ _ => rfl

theorem releaseReset_ignoresHidden : IgnoresHidden releaseReset := fun _ _ => rfl

theorem writeReg_ignoresHidden (r : Option Reg) (v : Word) : IgnoresHidden (writeReg r v) := by
  intro h s
  cases r with
  | none => rfl
  | some r => cases r <;> rfl

theorem commitResult_ignoresHidden (r : Resolution) : IgnoresHidden (commitResult r) := by
  intro h s
  simp only [commitResult]
  split <;> rfl

/-- The two states agree on the token and on every field but its dead bytes, the counter and the observations. -/
def SameVisible (s t : State) : Prop :=
  t = { s with tokbuf := t.tokbuf, ctr := t.ctr, presc := t.presc, observed := t.observed } ∧ token t = token s

/-- What makes every step keep a relation: related states agree on what a step reads, and the operations on the token,
the counter, the observations and the reset keep the relation. -/
structure StepRelation (R : State → State → Prop) : Prop where
  visible {s t : State} : R s t → SameVisible s t
  ignoresHidden {f : State → State} {s t : State} : IgnoresHidden f → R s t → R (f s) (f t)
  clearToken {s t : State} : R s t → R (clearToken s) (clearToken t)
  pushToken (b : Byte) {s t : State} : R s t → R (pushToken b s) (pushToken b t)
  restart {s t : State} : R s t → R (setCounter 0 0 s) (setCounter 0 0 t)
  readValue (a : Nat) (v : Word) {s t : State} :
    R s t → R (observe (.readValue a v) s) (observe (.readValue a v) t)
  clockEdge {s t : State} : R s t → R (onClockEdge s) (onClockEdge t)
  assertReset {s t : State} : R s t → R (assertReset s) (assertReset t)

theorem regval_of_sameVisible {s t : State} (h : SameVisible s t) (a : Nat) : regval t a = regval s a := by
  rw [h.1]
  rfl

namespace StepRelation

variable {R : State → State → Prop} (hR : StepRelation R) {s t : State}
include hR

theorem setLastErr (e : ErrCode) (h : R s t) : R (setLastErr e s) (setLastErr e t) :=
  hR.ignoresHidden (setLastErr_ignoresHidden e) h

theorem silence (h : R s t) : R (silence s) (silence t) := hR.ignoresHidden silence_ignoresHidden h

theorem program (d p : Nat) (h : R s t) : R (program d p s) (program d p t) := by
  have hsame (d : BitVec 9) (p : BitVec 16) (l : BitVec 17) : sameProgram d p l t = sameProgram d p l s := by
    rw [(hR.visible h).1]
    rfl
  have hset := hR.ignoresHidden (enableProgram_ignoresHidden (.ofNat 9 d) (.ofNat 16 p) (.ofNat 17 (dutyLevel p))) h
  simp only [Machine.program, hsame]
  split
  · exact hset
  · exact hR.restart hset

theorem setTone (clk : Nat) (f : Word) (h : R s t) : R (setTone clk f s) (setTone clk f t) := by
  simp only [Machine.setTone]
  split
  · exact hR.ignoresHidden (report_ignoresHidden _) h
  · exact hR.setLastErr .ok (hR.silence h)
  · exact hR.setLastErr .ok (hR.program _ _ h)

theorem keyTone (clk : Nat) (b : Byte) (h : R s t) : R (keyTone clk b s) (keyTone clk b t) := by
  simp only [Machine.keyTone]
  split
  · exact hR.setLastErr .ok (hR.program _ _ h)
  · exact hR.setLastErr .ok (hR.silence h)

theorem driveChannel (clk : Nat) (r : Resolution) (h : R s t) : R (driveChannel clk r s) (driveChannel clk r t) := by
  have herr : t.errSilence = s.errSilence := by rw [(hR.visible h).1]
  simp only [Machine.driveChannel, herr]
  split
  · exact hR.program _ _ h
  · exact hR.silence h
  · split
    · exact hR.silence h
    · exact h
  · exact h

theorem commitToken (h : R s t) : R (commitResult (resolve (token s)) s) (commitResult (resolve (token t)) t) := by
  rw [(hR.visible h).2]
  exact hR.ignoresHidden (commitResult_ignoresHidden _) h

theorem playToken (clk : Nat) (h : R s t) : R (playToken clk s) (playToken clk t) := by
  simp only [Machine.playToken, (hR.visible h).2]
  exact hR.driveChannel _ _ (hR.ignoresHidden (commitResult_ignoresHidden _) h)

theorem afterCommand (i : Instr) (h : R s t) : R (afterCommand i s) (afterCommand i t) := by
  cases i with
  | nop => exact hR.setLastErr .ok h
  | tokClear => exact hR.setLastErr .ok (hR.clearToken h)
  | tokPush b => exact hR.setLastErr .ok (hR.pushToken b h)
  | resolve => exact hR.commitToken h
  | setTone =>
    have hf : t.freq = s.freq := by rw [(hR.visible h).1]
    simp only [Machine.afterCommand, hf]
    exact hR.setTone _ _ h
  | silence => exact hR.setLastErr .ok (hR.silence h)
  | playToken => exact hR.playToken _ h
  | keyTone b => exact hR.keyTone _ b h

theorem memWrite (a : Nat) (v : Word) (h : R s t) : SameOutcome R (memWrite a v s) (memWrite a v t) := by
  simp only [Machine.memWrite]
  split
  · simp only [writeCmd, exec_eq_afterCommand]
    split
    · exact hR.afterCommand _ h
    · exact hR.ignoresHidden (report_ignoresHidden _) h
  · exact hR.ignoresHidden (writeReg_ignoresHidden _ _) h

theorem onAccess (r : Requester) (a : Access) (h : R s t) : SameOutcome R (onAccess r a s) (onAccess r a t) := by
  have hreset : t.inReset = s.inReset := by rw [(hR.visible h).1]
  cases r with
  | second => rfl
  | host =>
    simp only [Machine.onAccess, hreset]
    split
    · rfl
    · cases a with
      | read a n =>
        simp only [memRead, regval_of_sameVisible (hR.visible h)]
        exact hR.readValue _ _ h
      | write a n v => exact hR.memWrite a v h

theorem onEvent (e : Event) (h : R s t) : SameOutcome R (onEvent e s) (onEvent e t) := by
  cases e with
  | access r a => exact hR.onAccess r a h
  | clockEdge => exact hR.clockEdge h
  | resetAssert => exact hR.assertReset h
  | resetRelease => exact hR.ignoresHidden releaseReset_ignoresHidden h

/-- Related states step to the same outcome up to the relation. -/
theorem step (h : R s t) : SameOutcome R (step s) (step t) := by
  have hp : t.pending = s.pending := by rw [(hR.visible h).1]
  simp only [Machine.step, runNext, hp]
  split
  · exact hR.clockEdge h
  · exact hR.onEvent _ (hR.ignoresHidden (setPending_ignoresHidden _) h)

end StepRelation

/-- An operation that ignores the hidden fields leaves them. -/
theorem IgnoresHidden.keeps {f : State → State} (hf : IgnoresHidden f) (s : State) : f s = withHidden s (f s) := hf s s

/-! ## The dead bytes of TOKBUF -/

theorem sameLiveToken_iff {s t : State} :
    SameLiveToken s t ↔ ∃ b, t = { s with tokbuf := b } ∧ token { s with tokbuf := b } = token s := by
  constructor
  · rintro ⟨h, hk⟩
    exact ⟨t.tokbuf, h, h ▸ hk⟩
  · rintro ⟨b, rfl, hk⟩
    exact ⟨rfl, hk⟩

/-- TOK_PUSH in terms of the token alone: the byte is appended, and lost when the token is full (R112). -/
theorem token_pushToken (b : Byte) (s : State) : token (pushToken b s) = (token s ++ [b]).take Config.tokenCap := by
  by_cases h : s.tokLen.toNat < Config.tokenCap
  · have hlen : (s.tokLen + 1).toNat = s.tokLen.toNat + 1 := toNat_add_one_of_lt (Nat.succ_lt_succ h)
    rw [pushToken_of_lt b s h, List.take_of_length_le (by simpa [token_length] using h)]
    simp only [token, hlen, Vector.toList_set, List.take_add_one, List.take_set_of_le le_rfl]
    simp [h]
  · have hfull : (token s).length = Config.tokenCap := by
      have := s.tokLen.isLt
      rw [token_length, Config.tokenCap] at *
      omega
    rw [pushToken_of_full b s h, ← hfull, List.take_left]

theorem sameLiveToken_stepRelation : StepRelation SameLiveToken where
  visible := fun ⟨h, hk⟩ => ⟨by rw [h], hk⟩
  ignoresHidden {f s t} hf h := by
    obtain ⟨b, rfl, hk⟩ := sameLiveToken_iff.mp h
    rw [show f { s with tokbuf := b } = withHidden { s with tokbuf := b } (f s) from hf { s with tokbuf := b } s,
      hf.keeps s]
    exact ⟨rfl, hk⟩
  clearToken {s t} h := by
    obtain ⟨b, rfl, -⟩ := sameLiveToken_iff.mp h
    exact ⟨rfl, by simp [token, clearToken]⟩
  pushToken c s t h := by
    refine ⟨?_, by rw [token_pushToken, token_pushToken, h.2]⟩
    obtain ⟨b, rfl, -⟩ := sameLiveToken_iff.mp h
    by_cases hlt : s.tokLen.toNat < Config.tokenCap
    · rw [pushToken_of_lt c s hlt, pushToken_of_lt c { s with tokbuf := b } hlt]
    · rw [pushToken_of_full c s hlt, pushToken_of_full c { s with tokbuf := b } hlt]
  restart {s t} h := by
    obtain ⟨b, rfl, hk⟩ := sameLiveToken_iff.mp h
    exact ⟨rfl, hk⟩
  readValue a v s t h := by
    obtain ⟨b, rfl, hk⟩ := sameLiveToken_iff.mp h
    exact ⟨rfl, hk⟩
  clockEdge {s t} h := by
    obtain ⟨b, rfl, hk⟩ := sameLiveToken_iff.mp h
    simp only [onClockEdge, timerStep]
    split
    · split <;> exact ⟨rfl, hk⟩
    · exact ⟨rfl, hk⟩
  assertReset {s t} h := by
    obtain ⟨b, rfl, -⟩ := sameLiveToken_iff.mp h
    exact ⟨rfl, rfl⟩

/-- Settles O23: no operation of the model reads TOKBUF but through the token. -/
theorem deadTokenBytesUnread : Obligations.DeadTokenBytesUnread := fun _ _ => sameLiveToken_stepRelation.step

/-! ## The timer -/

theorem sameForReader_iff {s t : State} :
    SameForReader s t ↔
      ∃ c p o, t = { s with ctr := c, presc := p, observed := o } ∧ readValues o = readValues s.observed := by
  constructor
  · exact fun ⟨h, ho⟩ => ⟨t.ctr, t.presc, t.observed, h, ho⟩
  · rintro ⟨c, p, o, rfl, ho⟩
    exact ⟨rfl, ho⟩

theorem onClockEdge_observed (s : State) :
    (onClockEdge s).observed = .toneOut (toneOut (timerStep s)) :: s.observed := by
  rw [onClockEdge, timerStep_frame]
  rfl

theorem sameForReader_stepRelation : StepRelation SameForReader where
  visible {s t} h := by
    obtain ⟨c, p, o, rfl, -⟩ := sameForReader_iff.mp h
    exact ⟨rfl, rfl⟩
  ignoresHidden {f s t} hf h := by
    obtain ⟨c, p, o, rfl, ho⟩ := sameForReader_iff.mp h
    rw [show f { s with ctr := c, presc := p, observed := o } = _ from hf { s with ctr := c, presc := p, observed := o } s,
      hf.keeps s]
    exact ⟨rfl, ho⟩
  clearToken {s t} h := by
    obtain ⟨c, p, o, rfl, ho⟩ := sameForReader_iff.mp h
    exact ⟨rfl, ho⟩
  pushToken b s t h := by
    obtain ⟨c, p, o, rfl, ho⟩ := sameForReader_iff.mp h
    by_cases hlt : s.tokLen.toNat < Config.tokenCap
    · rw [pushToken_of_lt b s hlt, pushToken_of_lt b { s with ctr := c, presc := p, observed := o } hlt]
      exact ⟨rfl, ho⟩
    · rwa [pushToken_of_full b s hlt, pushToken_of_full b { s with ctr := c, presc := p, observed := o } hlt]
  restart {s t} h := by
    obtain ⟨c, p, o, rfl, ho⟩ := sameForReader_iff.mp h
    exact ⟨rfl, ho⟩
  readValue a v s t h := by
    obtain ⟨c, p, o, rfl, ho⟩ := sameForReader_iff.mp h
    exact ⟨rfl, congrArg ((a, v) :: ·) ho⟩
  clockEdge {s t} h := by
    refine ⟨?_, by simpa only [onClockEdge_observed, readValues] using h.2⟩
    obtain ⟨c, p, o, rfl, -⟩ := sameForReader_iff.mp h
    rw [onClockEdge_frame s]
    exact onClockEdge_frame { s with ctr := c, presc := p, observed := o }
  assertReset {s t} h := by
    obtain ⟨c, p, o, rfl, ho⟩ := sameForReader_iff.mp h
    exact ⟨rfl, ho⟩

/-- Settles O55: only the clock edge reads the timer, and it shows no more than a level. -/
theorem timerUnreadable : Obligations.TimerUnreadable := fun _ _ => sameForReader_stepRelation.step

end Sys2Proof.Machine
end

