-- ==== Sys2Proof/Proofs/NoteFrequency.lean ====
section
/-! The real behind FREQ_FN (R121): `compareNote` compares with it, and outside NOTE_MIN..NOTE_MAX (R123) it lies where
rounding gives +0.0 or +∞. -/

namespace Sys2Proof.Machine

/-- The real that FREQ_FN rounds (R121). -/
noncomputable def noteHz (n : ℤ) : ℝ := 440 * (2 : ℝ) ^ (((n : ℝ) - 69) / 12)

theorem noteHz_pos (n : ℤ) : 0 < noteHz n := by
  unfold noteHz
  positivity

theorem noteHz_pow_twelve (n : ℤ) : noteHz n ^ 12 = 440 ^ 12 * (2 : ℝ) ^ (n - 69) := by
  have h : ((n : ℝ) - 69) / 12 * (12 : ℕ) = ((n - 69 : ℤ) : ℝ) := by
    push_cast
    ring
  rw [noteHz, mul_pow, ← Real.rpow_mul_natCast two_pos.le, h, Real.rpow_intCast]

/-- The integers of `compareNote` stand to each other as the twelfth powers do: 2^k is the quotient of 2^k⁺ and 2^k⁻. -/
theorem compareNote_scaled (n : ℤ) (m : ℕ) (e : ℤ) :
    ∃ c : ℝ, 0 < c ∧ ((m : ℝ) * 2 ^ e) ^ 12 * c = (m ^ 12 * 2 ^ (12 * e - (n - 69)).toNat : ℕ) ∧
      noteHz n ^ 12 * c = (440 ^ 12 * 2 ^ (-(12 * e - (n - 69))).toNat : ℕ) := by
  have hm : e * 12 + ((-(12 * e - (n - 69))).toNat - (n - 69)) = ((12 * e - (n - 69)).toNat : ℤ) := by omega
  have hn : n - 69 + ((-(12 * e - (n - 69))).toNat - (n - 69)) = ((-(12 * e - (n - 69))).toNat : ℤ) := by omega
  have he : ((2 : ℝ) ^ e) ^ 12 = 2 ^ (e * 12) := (zpow_mul 2 e 12).symm
  refine ⟨2 ^ ((-(12 * e - (n - 69))).toNat - (n - 69) : ℤ), by positivity, ?_, ?_⟩
  · rw [mul_pow, he, mul_assoc, ← zpow_add₀ two_ne_zero, hm, zpow_natCast]
    push_cast
    rfl
  · rw [noteHz_pow_twelve, mul_assoc, ← zpow_add₀ two_ne_zero, hn, zpow_natCast]
    norm_num

theorem compareNote_comparesWith (n : ℤ) : ComparesWith (compareNote n) (noteHz n) := by
  intro m e
  obtain ⟨c, hc, hm, hn⟩ := compareNote_scaled n m e
  have hpos : 0 ≤ (m : ℝ) * 2 ^ e := by positivity
  have hlt : (m : ℝ) * 2 ^ e < noteHz n ↔ ((m : ℝ) * 2 ^ e) ^ 12 * c < noteHz n ^ 12 * c := by
    rw [mul_lt_mul_iff_left₀ hc, pow_lt_pow_iff_left₀ hpos (noteHz_pos n).le (by decide)]
  have heq : (m : ℝ) * 2 ^ e = noteHz n ↔ ((m : ℝ) * 2 ^ e) ^ 12 * c = noteHz n ^ 12 * c := by
    rw [mul_left_inj' hc.ne', pow_left_inj₀ hpos (noteHz_pos n).le (by decide)]
  rw [hlt, heq, hm, hn, Nat.cast_lt, Nat.cast_inj]
  exact ⟨compare_lt_iff_lt, compare_eq_iff_eq⟩

theorem noteHz_le_zpow {n k : ℤ} (h : n - 69 + 106 ≤ 12 * k) : noteHz n ≤ 2 ^ k := by
  rw [← pow_le_pow_iff_left₀ (noteHz_pos n).le (by positivity) (show 12 ≠ 0 by decide)]
  calc noteHz n ^ 12 = 440 ^ 12 * 2 ^ (n - 69) := noteHz_pow_twelve n
    _ ≤ 2 ^ (106 : ℤ) * 2 ^ (n - 69) := by gcongr; norm_num
    _ = 2 ^ (n - 69 + 106) := by rw [← zpow_add₀ two_ne_zero, add_comm]
    _ ≤ 2 ^ (12 * k) := zpow_le_zpow_right₀ one_le_two h
    _ = (2 ^ k) ^ 12 := by rw [mul_comm, zpow_mul]; rfl

theorem zpow_le_noteHz {n k : ℤ} (h : 12 * k ≤ n - 69 + 105) : 2 ^ k ≤ noteHz n := by
  rw [← pow_le_pow_iff_left₀ (by positivity) (noteHz_pos n).le (show 12 ≠ 0 by decide)]
  calc ((2 : ℝ) ^ k) ^ 12 = 2 ^ (12 * k) := by rw [mul_comm, zpow_mul]; rfl
    _ ≤ 2 ^ (n - 69 + 105) := zpow_le_zpow_right₀ one_le_two h
    _ = 2 ^ (105 : ℤ) * 2 ^ (n - 69) := by rw [← zpow_add₀ two_ne_zero, add_comm]
    _ ≤ 440 ^ 12 * 2 ^ (n - 69) := by gcongr; norm_num
    _ = noteHz n ^ 12 := (noteHz_pow_twelve n).symm

/-- Below NOTE_MIN the frequency is at most half the least pattern: 440^12 ≤ 2^106 (R123). -/
theorem freqFnRef_below {n : ℤ} (h : n < -1836) : freqFnRef n = 0x00000000#32 := by
  by_cases hb : n < -evalBound
  · exact if_pos hb
  have hb' : ¬evalBound < n := by simp only [evalBound] at *; omega
  have hle : noteHz n ≤ gridMid 0 := by
    rw [gridMid_zero]
    exact noteHz_le_zpow (by omega)
  rw [freqFnRef, if_neg hb, if_neg hb']
  exact rne32_eq_zero (compareNote_comparesWith n) hle

theorem freqFnRef_above {n : ℤ} (h : 1499 < n) : freqFnRef n = 0x7F800000#32 := by
  by_cases hb : n < -evalBound
  · simp only [evalBound] at hb; omega
  have hge : gridMid (infPattern - 1) ≤ noteHz n := by
    rw [gridMid_last]
    exact (mul_le_of_le_one_right (by positivity) (by norm_num)).trans (zpow_le_noteHz (by omega))
  rw [freqFnRef, if_neg hb]
  split
  · rfl
  · exact rne32_eq_inf (compareNote_comparesWith n) hge

end Sys2Proof.Machine
end

