-- ==== Sys2Proof/Proofs/Invariant.lean ====
section
/-! O52, O53, O54: the invariant (R36, R211, R230) in three parts, the channel, the results and the held reset, each with
the operations that keep it; and the range of a pitch's note number (R123). -/

namespace Sys2Proof.Machine

/-! ## The invariant's parts -/

/-- R36 items 2 and 3 and R211: the channel's duty level, divider and counter. -/
structure ChannelInv (s : State) : Prop where
  duty : s.chEn = true → s.chLevel.toNat = (s.chTop.toNat + 1) / 2
  divider : s.chDiv.toNat ∈ [1, 2, 4, 8, 16, 32, 64, 128, 256]
  counter : s.ctr.toNat ≤ s.chTop.toNat
  prescale : s.presc.toNat < s.chDiv.toNat

/-- R36 items 4 to 6: the result registers. -/
structure ResultInv (s : State) : Prop where
  pitch : s.resKind = .pitch → isPosFinite s.resFreq = true ∧ s.resFreq = freqFn s.resNote.toInt
  noPitch : s.resKind ≠ .pitch → s.resFreq = 0x00000000#32 ∧ s.resNote = 0x00000000#32
  cause : s.resKind = .invalid ↔ s.resCause ≠ .noCause

/-- R230: the block but for TOKBUF has its reset values while reset is asserted. -/
def HeldInReset (s : State) : Prop := s.inReset = true → s = { assertReset s with tokbuf := s.tokbuf }

/-- R36 items 1 and 7 hold by the fields' widths. -/
theorem stateInv_iff {s : State} : StateInv s ↔ ChannelInv s ∧ ResultInv s ∧ HeldInReset s := by
  constructor
  · intro h
    exact ⟨⟨h.duty, h.divider, h.counter, h.prescale⟩, ⟨h.pitch, h.noPitch, h.cause⟩, h.heldInReset⟩
  · rintro ⟨hc, hr, hh⟩
    exact
      { top_le := Nat.le_of_lt_succ s.chTop.isLt
        duty := hc.duty
        divider := hc.divider
        pitch := hr.pitch
        noPitch := hr.noPitch
        cause := hr.cause
        tokLen_le := Nat.le_of_lt_succ s.tokLen.isLt
        counter := hc.counter
        prescale := hc.prescale
        heldInReset := hh }

theorem stateInv_of_released {s : State} (h : s.inReset = false) (hc : ChannelInv s) (hr : ResultInv s) : StateInv s :=
  stateInv_iff.mpr ⟨hc, hr, fun hreset => by simp [h] at hreset⟩

theorem ChannelInv.congr {s t : State} (h : ChannelInv s)
    (he : t.chEn = s.chEn ∧ t.chDiv = s.chDiv ∧ t.chTop = s.chTop ∧ t.chLevel = s.chLevel ∧ t.ctr = s.ctr ∧
      t.presc = s.presc) : ChannelInv t := by
  obtain ⟨hen, hdiv, htop, hlevel, hctr, hpresc⟩ := he
  exact ⟨by rw [hen, hlevel, htop]; exact h.duty, by rw [hdiv]; exact h.divider, by rw [hctr, htop]; exact h.counter,
    by rw [hpresc, hdiv]; exact h.prescale⟩

theorem ResultInv.congr {s t : State} (h : ResultInv s)
    (he : t.resKind = s.resKind ∧ t.resCause = s.resCause ∧ t.resFreq = s.resFreq ∧ t.resNote = s.resNote) :
    ResultInv t := by
  obtain ⟨hkind, hcause, hfreq, hnote⟩ := he
  constructor
  · rw [hkind, hfreq, hnote]
    exact h.pitch
  · rw [hkind, hfreq, hnote]
    exact h.noPitch
  · rw [hkind, hcause]
    exact h.cause

/-! ## Reset -/

theorem channelInv_assertReset (s : State) : ChannelInv (assertReset s) :=
  ⟨nofun, List.mem_cons_self, le_rfl, Nat.one_pos⟩

theorem resultInv_assertReset (s : State) : ResultInv (assertReset s) :=
  ⟨nofun, fun _ => ⟨rfl, rfl⟩, nofun, fun h => (h rfl).elim⟩

/-- Settles O53: the reset values are those of an asserted reset, released. -/
theorem resetInv : Obligations.ResetInv :=
  stateInv_of_released rfl ((channelInv_assertReset State.reset).congr ⟨rfl, rfl, rfl, rfl, rfl, rfl⟩)
    ((resultInv_assertReset State.reset).congr ⟨rfl, rfl, rfl, rfl⟩)

/-! ## The channel -/

theorem ChannelInv.program {s : State} (h : ChannelInv s) {d p : Nat}
    (hd : d ∈ [1, 2, 4, 8, 16, 32, 64, 128, 256]) (hp : p ≤ 65535) : ChannelInv (program d p s) := by
  cases hs : sameProgram (BitVec.ofNat 9 d) (BitVec.ofNat 16 p) (BitVec.ofNat 17 (dutyLevel p)) s with
  | true => rwa [program_of_same d p s hs]
  | false =>
    rw [program_of_new d p s hs]
    have hd9 : d % 2 ^ 9 = d := by fin_cases hd <;> rfl
    have hpos : 0 < d := by fin_cases hd <;> decide
    refine ⟨fun _ => ?_, ?_, Nat.zero_le _, ?_⟩
    · simp only [BitVec.toNat_ofNat, dutyLevel]
      omega
    · rwa [BitVec.toNat_ofNat, hd9]
    · rwa [BitVec.toNat_ofNat, hd9]

theorem ChannelInv.searchAndProgram {s : State} (h : ChannelInv s) (clk : Nat) (b : Word) :
    ChannelInv (searchAndProgram clk b s) := h.program (search_bounds clk b).1 (search_bounds clk b).2

theorem ChannelInv.silence {s : State} (h : ChannelInv s) : ChannelInv (silence s) :=
  ⟨nofun, h.divider, h.counter, h.prescale⟩

theorem ChannelInv.setLastErr {s : State} (h : ChannelInv s) (e : ErrCode) : ChannelInv (setLastErr e s) :=
  ⟨h.duty, h.divider, h.counter, h.prescale⟩

theorem ChannelInv.driveChannel {s : State} (h : ChannelInv s) (clk : Nat) (r : Resolution) :
    ChannelInv (driveChannel clk r s) := by
  simp only [Machine.driveChannel]
  split
  · exact h.searchAndProgram clk r.freq
  · exact h.silence
  · split
    · exact h.silence
    · exact h
  · exact h

/-- Neither counter wraps at its width before it reaches its end (R211). -/
theorem ChannelInv.timerStep {s : State} (h : ChannelInv s) : ChannelInv (timerStep s) := by
  cases hen : s.chEn with
  | false => rwa [timerStep_disabled s hen]
  | true =>
    have hdiv : s.chDiv.toNat ≤ 256 := by
      have := h.divider
      simp only [List.mem_cons, List.not_mem_nil, or_false] at this
      omega
    have hp := h.prescale
    by_cases hlast : s.presc.toNat + 1 = s.chDiv.toNat
    · have hctr : (if s.ctr = s.chTop then 0 else s.ctr + 1).toNat ≤ s.chTop.toNat := by
        split
        case isTrue => exact Nat.zero_le _
        case isFalse hne =>
          have hlt : s.ctr.toNat < s.chTop.toNat :=
            lt_of_le_of_ne h.counter fun he => hne (BitVec.eq_of_toNat_eq he)
          rwa [toNat_add_one_of_lt (Nat.lt_of_le_of_lt hlt s.chTop.isLt)]
      rw [timerStep_count s hen hlast]
      exact ⟨h.duty, h.divider, hctr, Nat.zero_lt_of_lt hp⟩
    · have hpresc : (s.presc + 1).toNat < s.chDiv.toNat := by
        rw [toNat_add_one_of_lt (by omega)]
        omega
      rw [timerStep_prescale s hen hlast]
      exact ⟨h.duty, h.divider, h.counter, hpresc⟩

/-! ## The results -/

theorem freqFn_toInt_twos32 {n : Int} (h0 : freqFn n ≠ 0x00000000#32) (hinf : freqFn n ≠ 0x7F800000#32) :
    isPosFinite (freqFn n) = true ∧ (twos32 n).toInt = n := by
  rcases freqFnRef_cases n with h | h | ⟨hfin, hlo, hhi⟩
  · exact absurd h h0
  · exact absurd h hinf
  · refine ⟨hfin, ?_⟩
    rw [twos32, BitVec.toInt_ofInt]
    simp only [evalBound] at hlo hhi
    exact Int.bmod_eq_of_le (by omega) (by omega)

theorem resultInv_commitResult (s : State) (t : List Byte) : ResultInv (commitResult (resolve t) s) := by
  rcases resolveWith_cases freqFn t with h | ⟨n, h0, hinf, h⟩ | ⟨c, hc, h⟩
  · rw [resolve, h, commitResult_of_rest _ _ rfl]
    exact ⟨nofun, fun _ => ⟨rfl, rfl⟩, nofun, fun hne => (hne rfl).elim⟩
  · rw [resolve, h, commitResult_of_pitch _ _ rfl]
    obtain ⟨hfin, hn⟩ := freqFn_toInt_twos32 h0 hinf
    exact ⟨fun _ => ⟨hfin, congrArg freqFn hn.symm⟩, fun hne => (hne rfl).elim, nofun, fun hne => (hne rfl).elim⟩
  · rw [resolve, h, commitResult_of_invalid _ _ rfl]
    exact ⟨nofun, fun _ => ⟨rfl, rfl⟩, fun _ => hc, fun _ => rfl⟩

/-! ## Commands -/

theorem afterCommand_inReset (i : Instr) (s : State) : (afterCommand i s).inReset = s.inReset := by
  obtain ⟨-, -, h, -⟩ := whoWritesWhat i s _ (exec_eq_afterCommand i s)
  exact h

theorem ResultInv.afterCommand {s : State} (h : ResultInv s) (i : Instr) : ResultInv (afterCommand i s) := by
  obtain ⟨-, -, -, -, -, -, -, hkeep, -⟩ := whoWritesWhat i s _ (exec_eq_afterCommand i s)
  cases i with
  | resolve => exact resultInv_commitResult s (token s)
  | playToken =>
    refine (resultInv_commitResult s (token s)).congr ?_
    simp only [Machine.afterCommand, Machine.playToken]
    rw [driveChannel_frame]
    exact ⟨rfl, rfl, rfl, rfl⟩
  | _ => exact h.congr (hkeep nofun nofun)

theorem ChannelInv.setTone {s : State} (h : ChannelInv s) (clk : Nat) (f : Word) : ChannelInv (setTone clk f s) := by
  simp only [Machine.setTone]
  split
  · exact h.congr ⟨rfl, rfl, rfl, rfl, rfl, rfl⟩
  · exact h.silence.setLastErr .ok
  · exact (h.searchAndProgram clk f).setLastErr .ok

theorem ChannelInv.keyTone {s : State} (h : ChannelInv s) (clk : Nat) (b : Byte) : ChannelInv (keyTone clk b s) := by
  simp only [Machine.keyTone]
  split
  · exact (h.searchAndProgram clk _).setLastErr .ok
  · exact h.silence.setLastErr .ok

theorem ChannelInv.commitResult {s : State} (h : ChannelInv s) (r : Resolution) : ChannelInv (commitResult r s) := by
  refine h.congr ?_
  rw [commitResult_frame]
  exact ⟨rfl, rfl, rfl, rfl, rfl, rfl⟩

theorem ChannelInv.afterCommand {s : State} (h : ChannelInv s) (i : Instr) : ChannelInv (afterCommand i s) := by
  obtain ⟨-, -, -, -, -, -, -, -, hkeep⟩ := whoWritesWhat i s _ (exec_eq_afterCommand i s)
  cases i with
  | setTone => exact h.setTone _ _
  | silence => exact h.silence.setLastErr .ok
  | playToken => exact (h.commitResult _).driveChannel _ _
  | keyTone b => exact h.keyTone _ b
  | _ => exact h.congr (hkeep nofun nofun nofun nofun)

/-! ## Events -/

theorem writeReg_frame (r : Option Reg) (v : Word) (s : State) :
    writeReg r v s =
      { s with
        errSilence := (writeReg r v s).errSilence, errflags := (writeReg r v s).errflags
        freq := (writeReg r v s).freq } := by
  cases r with
  | none => rfl
  | some r => cases r <;> rfl

namespace StateInv

variable {s : State} (h : StateInv s)
include h

theorem setPending (es : List Event) : StateInv (setPending es s) := by
  obtain ⟨hc, hr, hh⟩ := stateInv_iff.mp h
  exact stateInv_iff.mpr ⟨hc.congr ⟨rfl, rfl, rfl, rfl, rfl, rfl⟩, hr.congr ⟨rfl, rfl, rfl, rfl⟩,
    fun hreset => congrArg (Machine.setPending es) (hh hreset)⟩

theorem observe (o : Observation) : StateInv (observe o s) := by
  obtain ⟨hc, hr, hh⟩ := stateInv_iff.mp h
  exact stateInv_iff.mpr ⟨hc.congr ⟨rfl, rfl, rfl, rfl, rfl, rfl⟩, hr.congr ⟨rfl, rfl, rfl, rfl⟩,
    fun hreset => congrArg (Machine.observe o) (hh hreset)⟩

/-- While reset is asserted the channel is disabled, so the timer does not move. -/
theorem timerStep : StateInv (timerStep s) := by
  obtain ⟨hc, hr, hh⟩ := stateInv_iff.mp h
  cases hen : s.chEn with
  | false => rwa [timerStep_disabled s hen]
  | true =>
    have hreleased : s.inReset = false := by
      by_contra hreset
      have hoff : s.chEn = false := congrArg State.chEn (hh (by simpa using hreset))
      simp [hoff] at hen
    have hreset : (Machine.timerStep s).inReset = false := by rwa [timerStep_frame]
    refine stateInv_of_released hreset hc.timerStep (hr.congr ?_)
    rw [timerStep_frame]
    exact ⟨rfl, rfl, rfl, rfl⟩

theorem releaseReset : StateInv (releaseReset s) := by
  obtain ⟨hc, hr, -⟩ := stateInv_iff.mp h
  exact stateInv_of_released rfl (hc.congr ⟨rfl, rfl, rfl, rfl, rfl, rfl⟩) (hr.congr ⟨rfl, rfl, rfl, rfl⟩)

theorem memWrite {t : State} {a : Nat} {v : Word} (hreset : s.inReset = false) (hw : memWrite a v s = .next t) :
    StateInv t := by
  obtain ⟨hc, hr, -⟩ := stateInv_iff.mp h
  rcases memWrite_cases hw with ⟨-, rfl⟩ | ⟨-, e, -, rfl⟩ | ⟨-, i, -, hi⟩
  · rw [writeReg_frame]
    exact stateInv_of_released hreset (hc.congr ⟨rfl, rfl, rfl, rfl, rfl, rfl⟩) (hr.congr ⟨rfl, rfl, rfl, rfl⟩)
  · exact stateInv_of_released hreset (hc.congr ⟨rfl, rfl, rfl, rfl, rfl, rfl⟩) (hr.congr ⟨rfl, rfl, rfl, rfl⟩)
  · rw [exec_next_iff] at hi
    subst hi
    exact stateInv_of_released ((afterCommand_inReset i s).trans hreset) (hc.afterCommand i) (hr.afterCommand i)

end StateInv

theorem stateInv_assertReset (s : State) : StateInv (assertReset s) :=
  stateInv_iff.mpr ⟨channelInv_assertReset s, resultInv_assertReset s, fun _ => rfl⟩

/-- Settles O52: every event keeps the invariant. -/
theorem stepKeepsInv : Obligations.StepKeepsInv := by
  intro s t h hstep
  rcases step_cases hstep with ⟨-, rfl⟩ | ⟨e, es, -, he⟩
  · exact h.timerStep.observe _
  · have hp := h.setPending es
    rcases he with ⟨-, rfl⟩ | ⟨-, rfl⟩ | ⟨-, rfl⟩ | ⟨-, a, n, -, -, rfl⟩ | ⟨hreset, a, n, v, -, -, hw⟩
    · exact hp.timerStep.observe _
    · exact stateInv_assertReset _
    · exact hp.releaseReset
    · exact hp.observe _
    · exact hp.memWrite hreset hw

/-! ## The range of a pitch -/

/-- Settles O54: outside the range the invariant's frequency would be +0.0 or +∞. -/
theorem pitchNoteInRange : Obligations.PitchNoteInRange := by
  intro s h hk
  obtain ⟨hfin, hf⟩ := h.pitch hk
  constructor
  · by_contra hlo
    rw [hf, freqFn, freqFnRef_below (by omega)] at hfin
    exact absurd hfin (by decide)
  · by_contra hhi
    rw [hf, freqFn, freqFnRef_above (by omega)] at hfin
    exact absurd hfin (by decide)

end Sys2Proof.Machine
end

