-- ==== Sys2Proof/Proofs/RegisterPort.lean ====
section
/-! O6, O8, O9: the register port (R70 to R73): what an admitted read observes, what an admitted write does, and which
accesses are admitted. -/

namespace Sys2Proof.Machine

/-! ## One access -/

theorem onAccess_host_read {s : State} {a : Nat} (hr : s.inReset = false) (ha : admitted a 4 = true) :
    onAccess .host (.read a 4) s = .next (memRead a s) := by
  simp [onAccess, accessOffset, accessSize, hr, ha]

/-- An access the port does not admit is a fault whatever the reset input's level. -/
theorem onAccess_host_not_admitted (s : State) {acc : Access}
    (ha : ¬admitted (accessOffset acc) (accessSize acc) = true) :
    onAccess .host acc s = .fault (.busError (accessOffset acc)) := by
  simp [onAccess, ha]

section

variable {s : State} {a : Nat} {rest : List Event}

theorem step_host_read (hp : s.pending = .access .host (.read a 4) :: rest) (hr : s.inReset = false)
    (ha : a % 4 = 0 ∧ a ≤ 0x3C) : step s = .next (memRead a (setPending rest s)) := by
  rw [step_of_pending hp]
  exact onAccess_host_read hr ((admitted_iff a 4).mpr ⟨rfl, ha⟩)

theorem step_host_write {v : Word} (hp : s.pending = .access .host (.write a 4 v) :: rest) (hr : s.inReset = false)
    (ha : a % 4 = 0 ∧ a ≤ 0x3C) : step s = memWrite a v (setPending rest s) := by
  rw [step_of_pending hp]
  exact onAccess_host_write v hr ((admitted_iff a 4).mpr ⟨rfl, ha⟩)

end

/-! ## Reads -/

theorem toNat_zero_append {m n : Nat} (x : BitVec n) : (0#m ++ x).toNat = x.toNat := by
  simp

theorem regval_reserved (s : State) {a : Nat} (h : 0x28 ≤ a) : regval s a = 0x00000000#32 := by
  rw [regval, regAt_reserved h]

/-- Settles O6: the value is the register map's, and only the record of reads changes. -/
theorem readReturnsRegister : Obligations.ReadReturnsRegister := by
  intro s a rest hp hr hal hle
  refine ⟨regval s a, step_host_read hp hr ⟨hal, hle⟩, ?ctrl, ?status, ?errflags, ?cmd, ?freq, ?resFreq, ?resNote,
    ?chDiv, ?chTop, ?chLevel, regval_reserved s⟩
  all_goals rintro rfl
  case ctrl => exact (toNat_zero_append _).trans (BitVec.toNat_ofBool _)
  case status => exact statusWord_toNat s
  case errflags => exact toNat_zero_append s.errflags
  case chDiv => exact toNat_zero_append s.chDiv
  case chTop => exact toNat_zero_append s.chTop
  case chLevel => exact toNat_zero_append s.chLevel
  all_goals rfl

/-! ## Writes -/

/-- R37: write-1-to-clear, bit by bit. -/
theorem clearFlags_getLsbD (f : BitVec 3) (v : Word) {j : Nat} (hj : j < 3) :
    (clearFlags f v).getLsbD j = (f.getLsbD j && !v.getLsbD j) := by
  simp [clearFlags, hj]

/-- STATUS, the registers from RES_FREQ on and the reserved offsets ignore a write. -/
theorem memWrite_ignored (v : Word) (s : State) {a : Nat} (h : a = 0x04 ∨ 0x14 ≤ a) : memWrite a v s = .next s := by
  cases hreg : regAt a with
  | none => simp only [memWrite, hreg, writeReg]
  | some r =>
    have ha := regAt_eq_some hreg
    cases r with
    | ctrl | errflags | cmd | freq => simp only [regOffset] at ha; omega
    | status | resFreq | resNote | chDiv | chTop | chLevel => simp only [memWrite, hreg, writeReg]

/-- Settles O8: the write reaches `memWrite`, whose effect at each offset is the register's own. -/
theorem writeEffects : Obligations.WriteEffects := by
  intro s a v rest hp hr hal hle
  rw [step_host_write hp hr ⟨hal, hle⟩]
  refine ⟨?ctrl, ?errflags, ?cmd, ?freq, memWrite_ignored v _⟩
  case ctrl => rintro rfl; rfl
  case errflags =>
    rintro rfl
    exact ⟨clearFlags s.errflags v, rfl, fun j hj => clearFlags_getLsbD s.errflags v hj⟩
  case cmd =>
    rintro rfl i hd
    exact writeCmd_of_decode _ hd
  case freq => rintro rfl; rfl

/-- No write stops: a command completes, and an illegal word is reported (R191, R196). -/
theorem memWrite_completes (a : Nat) (v : Word) (s : State) : ∃ t, memWrite a v s = .next t := by
  unfold memWrite
  split
  · cases hd : decode v with
    | ok i => exact ⟨afterCommand i s, (writeCmd_of_decode s hd).trans (exec_eq_afterCommand i s)⟩
    | error e => exact ⟨report .illegalCmd s, by simp only [writeCmd, hd]⟩
  · exact ⟨_, rfl⟩

/-- Settles O9: an admitted read or write completes, and any other access stops before it has an effect. -/
theorem portAdmits : Obligations.PortAdmits := by
  intro s a size v rest hr acc hacc hp
  constructor
  · rintro ⟨rfl, ha⟩
    rcases hacc with rfl | rfl
    · exact ⟨_, step_host_read hp hr ha⟩
    · rw [step_host_write hp hr ha]
      exact memWrite_completes a v _
  · intro hna
    rw [← admitted_iff] at hna
    rw [step_of_pending hp]
    rcases hacc with rfl | rfl <;> exact onAccess_host_not_admitted _ hna

end Sys2Proof.Machine
end

