-- ==== Sys2Proof/Proofs/Encoding.lean ====
section
/-! O1, O2, O3, O4, O47: the encoding (R90 to R95), the step of a CMD word that encodes no command (R191), and the host
program PLAY (R100) as a run of command writes. -/

namespace Sys2Proof.Machine

/-! ## The fields of CMD32 -/

theorem cmd32_toNat (arg opc : Byte) : (cmd32 arg opc).toNat = arg.toNat * 2 ^ 8 + opc.toNat := by
  rw [cmd32, toNat_append_eq_add, toNat_zero_append]

/-- R90: a word whose RSV is zero is its two other fields put together. -/
theorem eq_cmd32_iff {w : Word} {arg opc : Byte} :
    w = cmd32 arg opc ↔ rsvField w = 0 ∧ argField w = arg ∧ opcField w = opc := by
  have hw := w.isLt
  have harg := arg.isLt
  have hopc := opc.isLt
  simp only [← BitVec.toNat_inj, cmd32_toNat, rsvField, argField, opcField, BitVec.extractLsb'_toNat,
    Nat.shiftRight_eq_div_pow, BitVec.ofNat_eq_ofNat, BitVec.toNat_ofNat]
  omega

@[simp] theorem rsvField_cmd32 (arg opc : Byte) : rsvField (cmd32 arg opc) = 0 := (eq_cmd32_iff.mp rfl).1

@[simp] theorem argField_cmd32 (arg opc : Byte) : argField (cmd32 arg opc) = arg := (eq_cmd32_iff.mp rfl).2.1

@[simp] theorem opcField_cmd32 (arg opc : Byte) : opcField (cmd32 arg opc) = opc := (eq_cmd32_iff.mp rfl).2.2

/-- R95's three clauses. -/
theorem legalWord_eq_false_iff (w : Word) : legalWord w = false ↔
    w.extractLsb' 16 16 ≠ 0#16 ∨ 0x08 ≤ (w.extractLsb' 0 8).toNat ∨
      (w.extractLsb' 0 8 ≠ 0x02#8 ∧ w.extractLsb' 0 8 ≠ 0x07#8 ∧ w.extractLsb' 8 8 ≠ 0#8) := by
  simp [legalWord, rsvClear, opcAssigned, argAllowed, and_assoc, or_assoc, imp_iff_not_or]

/-! ## Decode and encode -/

/-- The fields of a command's word select the decoder's branch. -/
theorem decode_encode (i : Instr) : decode (encode i) = .ok i := by
  cases i <;> simp [encode, decode, decodeNoArg]

theorem legalWord_encode (i : Instr) : legalWord (encode i) = true := by
  cases i with
  | nop => exact Laws.EncodedLegal.nop.1
  | tokClear => exact Laws.EncodedLegal.tokClear.1
  | tokPush b => exact (Laws.EncodedLegal.tokPush b).1
  | resolve => exact Laws.EncodedLegal.resolve.1
  | setTone => exact Laws.EncodedLegal.setTone.1
  | silence => exact Laws.EncodedLegal.silence.1
  | playToken => exact Laws.EncodedLegal.playToken.1
  | keyTone b => exact (Laws.EncodedLegal.keyTone b).1

/-- What decoding a word can answer, `r` being the answer: a command whose word it is, or a clause of R95, and then the
word is illegal. -/
def CorrectDecoding (w : Word) (r : Except IllegalWord Instr) : Prop :=
  (∃ i, r = .ok i ∧ w = encode i) ∨ ((∃ e, r = .error e) ∧ legalWord w = false)

theorem decodeNoArg_correct {w : Word} {i : Instr} {opc : Byte} (hrsv : rsvField w = 0) (hopc : opcField w = opc)
    (hi : encode i = cmd32 0x00#8 opc) (hno : opc ≠ 0x02#8 ∧ opc ≠ 0x07#8) :
    CorrectDecoding w (decodeNoArg w i) := by
  by_cases harg : argField w = 0
  · exact .inl ⟨i, if_pos harg, hi ▸ eq_cmd32_iff.mpr ⟨hrsv, harg, hopc⟩⟩
  · refine .inr ⟨⟨.argNonzero, if_neg harg⟩, ?_⟩
    subst hopc
    exact (legalWord_eq_false_iff w).mpr (.inr (.inr ⟨hno.1, hno.2, harg⟩))

theorem decode_correct (w : Word) : CorrectDecoding w (decode w) := by
  by_cases hrsv : rsvField w = 0
  · have hnoArg {i : Instr} {n : Nat} (hopc : (opcField w).toNat = n) :=
      decodeNoArg_correct (i := i) (opc := BitVec.ofNat 8 n) hrsv (BitVec.eq_of_toNat_eq (by simp [← hopc]))
    have hbyte {i : Instr} {n : Nat} (hopc : (opcField w).toNat = n)
        (hi : encode i = cmd32 (argField w) (BitVec.ofNat 8 n)) : w = encode i :=
      hi ▸ eq_cmd32_iff.mpr ⟨hrsv, rfl, BitVec.eq_of_toNat_eq (by simp [← hopc])⟩
    rw [decode, if_pos hrsv]
    split
    next h => exact hnoArg h rfl (by decide)
    next h => exact hnoArg h rfl (by decide)
    next h => exact .inl ⟨_, rfl, hbyte h rfl⟩
    next h => exact hnoArg h rfl (by decide)
    next h => exact hnoArg h rfl (by decide)
    next h => exact hnoArg h rfl (by decide)
    next h => exact hnoArg h rfl (by decide)
    next h => exact .inl ⟨_, rfl, hbyte h rfl⟩
    next h0 h1 h2 h3 h4 h5 h6 h7 =>
      have hopc : 0x08 ≤ (opcField w).toNat := by
        simp only [imp_false] at *
        omega
      exact .inr ⟨⟨.opcUnassigned, rfl⟩, (legalWord_eq_false_iff w).mpr (.inr (.inl hopc))⟩
  · exact .inr ⟨⟨.rsvNonzero, if_neg hrsv⟩, (legalWord_eq_false_iff w).mpr (.inl hrsv)⟩

/-- Settles O1: a word that decodes is its command's word. -/
theorem decodeEncodeAgree : Obligations.DecodeEncodeAgree := by
  intro w i
  constructor
  · intro hd
    rcases decode_correct w with ⟨j, hj, hw⟩ | ⟨⟨e, he⟩, -⟩
    · rw [hd] at hj
      exact Except.ok.inj hj ▸ hw
    · rw [hd] at he
      cases he
  · rintro rfl
    exact decode_encode i

/-- The mask 0xFFFF00FF keeps RSV and OPC and leaves ARG open. -/
theorem and_opcMask_eq_iff (w : Word) (opc : Byte) :
    w &&& 0xFFFF00FF#32 = cmd32 0x00#8 opc ↔ w = cmd32 (argField w) opc := by
  have hrsv : rsvField (w &&& 0xFFFF00FF#32) = rsvField w := BitVec.extractLsb'_and.trans BitVec.and_allOnes
  have harg : argField (w &&& 0xFFFF00FF#32) = 0 := BitVec.extractLsb'_and.trans BitVec.and_zero
  have hopc : opcField (w &&& 0xFFFF00FF#32) = opcField w := BitVec.extractLsb'_and.trans BitVec.and_allOnes
  simp [eq_cmd32_iff, hrsv, harg, hopc]

/-- Settles O2: under the full mask the word is the match, and under 0xFFFF00FF it is the match with its own ARG. -/
theorem tableMatchMask : Obligations.TableMatchMask := by
  intro w
  have hfull (i : Instr) : w &&& 0xFFFFFFFF#32 = encode i ↔ decode w = .ok i := by
    rw [decodeEncodeAgree w i]
    exact iff_of_eq (congrArg (· = encode i) BitVec.and_allOnes)
  have hpush : w &&& 0xFFFF00FF#32 = 0x00000002#32 ↔ decode w = .ok (.tokPush (argField w)) :=
    (and_opcMask_eq_iff w 0x02#8).trans (decodeEncodeAgree w (.tokPush _)).symm
  have hkey : w &&& 0xFFFF00FF#32 = 0x00000007#32 ↔ decode w = .ok (.keyTone (argField w)) :=
    (and_opcMask_eq_iff w 0x07#8).trans (decodeEncodeAgree w (.keyTone _)).symm
  exact ⟨hfull .nop, hfull .tokClear, hpush, hfull .resolve, hfull .setTone, hfull .silence, hfull .playToken, hkey⟩

/-- Settles O3: one word per row of R94, and a word for each clause of R95. -/
theorem specWordsDecode : Obligations.SpecWordsDecode := by
  unfold Obligations.SpecWordsDecode
  decide

/-! ## Illegal words -/

theorem legalWord_eq_true_iff (w : Word) : legalWord w = true ↔ ∃ i, decode w = .ok i := by
  constructor
  · intro hlegal
    rcases decode_correct w with ⟨i, hi, -⟩ | ⟨-, hillegal⟩
    · exact ⟨i, hi⟩
    · simp [hlegal] at hillegal
  · rintro ⟨i, hi⟩
    exact (decodeEncodeAgree w i).mp hi ▸ legalWord_encode i

/-- R191: a word that encodes no command is reported. -/
theorem writeCmd_of_illegal {w : Word} (s : State) (h : legalWord w = false) :
    writeCmd w s = .next (report .illegalCmd s) := by
  cases hd : decode w with
  | ok i => exact absurd ((legalWord_eq_true_iff w).mpr ⟨i, hd⟩) (by simp [h])
  | error e => simp only [writeCmd, hd]

/-- Settles O4: a word decodes unless it is illegal, and the write to CMD runs the command or makes the report. -/
theorem illegalWordReported : Obligations.IllegalWordReported := by
  intro s w rest hp hr illegal
  have hillegal : legalWord w = false ↔ illegal := legalWord_eq_false_iff w
  have hstep : step s = writeCmd w (setPending rest s) := step_host_write hp hr (by decide)
  constructor
  · intro h
    rw [hstep, writeCmd_of_illegal _ (hillegal.mpr h), report_eq]
    rfl
  · intro h
    rw [← hillegal, Bool.not_eq_false, legalWord_eq_true_iff] at h
    obtain ⟨i, hi⟩ := h
    exact ⟨i, hi, stepRunsDecodedCommand s w i rest hp hr hi⟩

/-! ## Runs of command writes -/

theorem run_add_of_next {M : Host.Core} {m : Nat} {s t : M.State} (h : M.run m s = .next t) (n : Nat) :
    M.run (m + n) s = M.run n t := by
  induction m generalizing s with
  | zero =>
    obtain rfl : s = t := by simpa [Host.Core.run] using h
    rw [Nat.zero_add]
  | succ m ih =>
    rw [Nat.succ_add]
    cases hs : M.step s with
    | next u =>
      simp only [Host.Core.run, hs] at h ⊢
      exact ih h
    | fault r => simp [Host.Core.run, hs] at h
    | refused r => simp [Host.Core.run, hs] at h

theorem step_commandWrite {s : State} {i : Instr} {rest : List Event} (hp : s.pending = commandWrite i :: rest)
    (hr : s.inReset = false) : step s = .next (afterCommand i (setPending rest s)) := by
  rw [stepRunsDecodedCommand s _ i rest hp hr (decode_encode i), exec_eq_afterCommand]
  rfl

theorem run_commandWrite {s : State} {i : Instr} {rest : List Event} (hp : s.pending = commandWrite i :: rest)
    (hr : s.inReset = false) (n : Nat) : core.run (n + 1) s = core.run n (afterCommand i (setPending rest s)) := by
  have hstep : core.step s = .next (afterCommand i (setPending rest s)) := step_commandWrite hp hr
  simp only [Host.Core.run, hstep]

/-- What a cut loses before more is appended, a cut afterwards loses too. -/
theorem take_append_take_left {α : Type} (l m : List α) (n : Nat) : (l.take n ++ m).take n = (l ++ m).take n := by
  rw [List.take_append, List.take_append, List.take_take, List.length_take, Nat.min_self]
  congr 2
  omega

theorem token_length_le (s : State) : (token s).length ≤ Config.tokenCap := by
  have := s.tokLen.isLt
  rw [token_length, Config.tokenCap]
  omega

/-- Only the token and LAST_ERR can differ after TOK_PUSH. -/
theorem afterCommand_tokPush_frame (b : Byte) (s : State) :
    afterCommand (.tokPush b) s =
      { s with
        tokLen := (afterCommand (.tokPush b) s).tokLen, tokbuf := (afterCommand (.tokPush b) s).tokbuf
        lastErr := .ok } := by
  rw [afterCommand, pushToken_frame]
  rfl

/-- One TOK_PUSH per byte: what TOKEN "s" does after TOK_CLEAR (R100). -/
def pushEvents (cs : List Byte) : List Event := cs.map fun b => commandWrite (.tokPush b)

theorem tokenEvents_eq (cs : List Byte) : tokenEvents cs = commandWrite .tokClear :: pushEvents cs := rfl

/-- TOK_PUSH commands written to CMD append their bytes (R112, R113). -/
theorem run_tokPushes (cs : List Byte) {s : State} {rest : List Event}
    (hp : s.pending = pushEvents cs ++ rest) (hr : s.inReset = false)
    (he : s.lastErr = .ok) :
    ∃ t : State, core.run cs.length s = .next t ∧ token t = (token s ++ cs).take Config.tokenCap ∧
      t = { s with tokLen := t.tokLen, tokbuf := t.tokbuf, pending := rest } := by
  induction cs generalizing s with
  | nil =>
    obtain rfl : s.pending = rest := hp
    refine ⟨s, rfl, ?_, rfl⟩
    rw [List.append_nil, List.take_of_length_le (token_length_le s)]
  | cons b cs ih =>
    have hrun := run_commandWrite (rest := pushEvents cs ++ rest) hp hr cs.length
    have hframe := afterCommand_tokPush_frame b (setPending (pushEvents cs ++ rest) s)
    have htoken := token_pushToken b (setPending (pushEvents cs ++ rest) s)
    obtain ⟨t, hnext, htok, ht⟩ := ih (s := afterCommand (.tokPush b) (setPending _ s))
      (by rw [hframe]; rfl) (by rw [hframe]; exact hr) rfl
    refine ⟨t, hrun.trans hnext, ?_, ?_⟩
    · calc token t = ((token s ++ [b]).take Config.tokenCap ++ cs).take Config.tokenCap := htoken ▸ htok
        _ = (token s ++ b :: cs).take Config.tokenCap := by
          rw [take_append_take_left, List.append_assoc, List.singleton_append]
    · rw [ht, hframe, ← he]
      rfl

/-- TOKEN "s" as accesses (R100): the token is the first 31 bytes of s (R113). -/
theorem run_tokenEvents (cs : List Byte) {s : State} {rest : List Event} (hp : s.pending = tokenEvents cs ++ rest)
    (hr : s.inReset = false) :
    ∃ t : State, core.run (cs.length + 1) s = .next t ∧ token t = cs.take Config.tokenCap ∧
      t = { s with tokLen := t.tokLen, tokbuf := t.tokbuf, lastErr := .ok, pending := rest } := by
  rw [tokenEvents_eq, List.cons_append] at hp
  have hclear := run_commandWrite hp hr cs.length
  obtain ⟨t, hnext, htok, ht⟩ := run_tokPushes cs (s := afterCommand .tokClear (setPending _ s)) rfl hr rfl
  exact ⟨t, hclear.trans hnext, htok, ht⟩

/-- Settles O47: the last access finds the token in the buffer. -/
theorem playText : Obligations.PlayText := by
  intro s cs rest hr
  obtain ⟨t, hnext, htok, ht⟩ := run_tokenEvents cs (s := { s with pending := lineEvents (.play cs) ++ rest })
    (List.append_assoc (tokenEvents cs) [commandWrite .playToken] rest) hr
  have hplay := run_commandWrite (s := t) (i := .playToken) (rest := rest) (by rw [ht]; rfl) (by rw [ht]; exact hr) 0
  refine ⟨setPending rest t, _, (run_add_of_next hnext 1).trans hplay, htok, exec_eq_afterCommand .playToken _, ?_⟩
  rw [ht]
  rfl

end Sys2Proof.Machine
end

