-- ==== Sys2Proof/Proofs/ReferenceFrequency.lean ====
section
/-! O31 to O34: FREQ_FN (R121 to R123, R127). The pattern that `rne32` answers is fixed by the two midpoints next to it,
grows with the real, and moves up by 2^23 when the real doubles; two evaluated patterns at the ends of a range then bound
all of them. -/

namespace Sys2Proof.Machine

/-! ## The pattern a real rounds to -/

/-- The midpoints next to the r-th pattern enclose x, and x lies on one of them only when r is even (R13). -/
structure RoundsTo (x : ℝ) (r : ℕ) : Prop where
  le_inf : r ≤ infPattern
  below : r ≠ 0 → gridMid (r - 1) ≤ x ∧ (gridMid (r - 1) = x → r % 2 = 0)
  above : r ≠ infPattern → x ≤ gridMid r ∧ (gridMid r = x → r % 2 = 0)

theorem toNat_ofNat_of_le_inf {r : ℕ} (h : r ≤ infPattern) : (BitVec.ofNat 32 r).toNat = r := by
  rw [BitVec.toNat_ofNat, Nat.mod_eq_of_lt (h.trans_lt (by decide))]

theorem rne32_roundsTo {cmp : Nat → Int → Ordering} {x : ℝ} (h : ComparesWith cmp x) :
    RoundsTo x (rne32 cmp).toNat := by
  obtain ⟨r, hr, hrne, hlo, hhi⟩ := rne32_enclosed h
  rw [hrne, toNat_ofNat_of_le_inf hr]
  exact ⟨hr, hlo, hhi⟩

namespace RoundsTo

variable {x y : ℝ} {p r : ℕ}

/-- Were the patterns in the other order, x = y would be the midpoint of two neighbours, both of them even. -/
theorem mono (hx : RoundsTo x p) (hy : RoundsTo y r) (hxy : x ≤ y) : p ≤ r := by
  by_contra! hrp
  obtain ⟨hlo, hlo_even⟩ := hx.below (by omega)
  obtain ⟨hhi, hhi_even⟩ := hy.above (by have := hx.le_inf; omega)
  have hle : p - 1 ≤ r := gridMid_strictMono.le_iff_le.mp (hlo.trans (hxy.trans hhi))
  obtain rfl : p = r + 1 := by omega
  rw [Nat.add_sub_cancel] at hlo hlo_even
  have hp := hlo_even (hlo.antisymm (hxy.trans hhi))
  have hr := hhi_even (hhi.antisymm' (hlo.trans hxy))
  omega

theorem unique (hp : RoundsTo x p) (hr : RoundsTo x r) : p = r :=
  (hp.mono hr le_rfl).antisymm (hr.mono hp le_rfl)

end RoundsTo

/-- Among the normal patterns one exponent up doubles the value. -/
theorem gridValue_add_octave {q : ℕ} (h : 2 ^ 23 ≤ q) : gridValue (q + 2 ^ 23) = 2 * gridValue q := by
  have hd : (q + 2 ^ 23) / 2 ^ 23 = q / 2 ^ 23 + 1 := by omega
  have hm : (q + 2 ^ 23) % 2 ^ 23 = q % 2 ^ 23 := by omega
  have h0 : q / 2 ^ 23 ≠ 0 := by omega
  have hs : ((max (q / 2 ^ 23 + 1) 1 : ℕ) : ℤ) - 150 = ((max (q / 2 ^ 23) 1 : ℕ) : ℤ) - 150 + 1 := by omega
  simp only [gridValue, gridSignificand, gridScale, hd, hm, hs, h0, Nat.succ_ne_zero, if_false,
    zpow_add_one₀ (two_ne_zero (α := ℝ))]
  ring

theorem gridMid_add_octave {q : ℕ} (h : 2 ^ 23 ≤ q) : gridMid (q + 2 ^ 23) = 2 * gridMid q := by
  rw [gridMid, gridMid, add_right_comm, gridValue_add_octave h, gridValue_add_octave (h.trans q.le_succ)]
  ring

theorem RoundsTo.octave {x : ℝ} {r : ℕ} (h : RoundsTo x r) (hlo : 2 ^ 23 < r) (hhi : r + 2 ^ 23 ≤ infPattern) :
    RoundsTo (2 * x) (r + 2 ^ 23) := by
  obtain ⟨hbelow, hbelow_even⟩ := h.below (by omega)
  obtain ⟨habove, habove_even⟩ := h.above (by omega)
  have hpred : r + 2 ^ 23 - 1 = r - 1 + 2 ^ 23 := by omega
  have hparity : (r + 2 ^ 23) % 2 = r % 2 := by omega
  refine ⟨hhi, fun _ => ?_, fun _ => ?_⟩
  · rw [hpred, gridMid_add_octave (by omega), hparity]
    exact ⟨by linarith, fun he => hbelow_even (by linarith)⟩
  · rw [gridMid_add_octave hlo.le, hparity]
    exact ⟨by linarith, fun he => habove_even (by linarith)⟩

/-- A finite pattern is within half a unit of its last place of the real. -/
theorem RoundsTo.abs_sub_le {x : ℝ} {r : ℕ} (h : RoundsTo x r) (h0 : r ≠ 0) (hi : r ≠ infPattern) :
    |gridValue r - x| ≤ (2 : ℝ) ^ gridScale r / 2 := by
  obtain ⟨hlo, -⟩ := h.below h0
  obtain ⟨hhi, -⟩ := h.above hi
  obtain ⟨q, rfl⟩ := Nat.exists_eq_succ_of_ne_zero h0
  have hstep : gridValue (q + 1) = gridValue q + (2 : ℝ) ^ gridScale q := by rw [gridValue_succ, gridValue]; ring
  have hnext : gridValue (q + 1 + 1) = gridValue (q + 1) + (2 : ℝ) ^ gridScale (q + 1) := by
    rw [gridValue_succ (q + 1), gridValue]; ring
  have hscale : (2 : ℝ) ^ gridScale q ≤ 2 ^ gridScale (q + 1) :=
    zpow_le_zpow_right₀ one_le_two (by simp only [gridScale]; omega)
  simp only [Nat.succ_eq_add_one, Nat.add_sub_cancel, gridMid] at hlo hhi
  rw [abs_le]
  constructor <;> linarith

/-! ## FREQ_FN -/

/-- Outside the evaluation bound, too, the reference is the rounded real. -/
theorem freqFnRef_eq_rne32 (n : ℤ) : freqFnRef n = rne32 (compareNote n) := by
  have hcmp := compareNote_comparesWith n
  by_cases h0 : n < -evalBound
  · have hle : noteHz n ≤ gridMid 0 := gridMid_zero ▸ noteHz_le_zpow (by simp only [evalBound] at h0; omega)
    rw [rne32_eq_zero hcmp hle, freqFnRef, if_pos h0]
  by_cases h1 : evalBound < n
  · rw [freqFnRef, if_neg h0, if_pos h1, rne32_eq_inf hcmp]
    rw [gridMid_last]
    exact (mul_le_of_le_one_right (by positivity) (by norm_num)).trans
      (zpow_le_noteHz (by simp only [evalBound] at h1; omega))
  · rw [freqFnRef, if_neg h0, if_neg h1]

theorem freqFnRef_roundsTo (n : ℤ) : RoundsTo (noteHz n) (freqFnRef n).toNat :=
  freqFnRef_eq_rne32 n ▸ rne32_roundsTo (compareNote_comparesWith n)

/-- Settles O31: FREQ_FN_ref is `rne32` of a comparison with the real. -/
theorem freqFnCorrectlyRounded : Obligations.FreqFnCorrectlyRounded := by
  intro n x
  rw [freqFnRef_eq_rne32]
  exact rne32Correct x (compareNote n) (noteHz_pos n) (compareNote_comparesWith n)

theorem noteHz_mono {m n : ℤ} (h : m ≤ n) : noteHz m ≤ noteHz n := by
  unfold noteHz
  gcongr
  exact one_le_two

theorem freqFnRef_mono {m n : ℤ} (h : m ≤ n) : (freqFnRef m).toNat ≤ (freqFnRef n).toNat :=
  (freqFnRef_roundsTo m).mono (freqFnRef_roundsTo n) (noteHz_mono h)

theorem freqFnRef_noteMin : freqFnRef (-1836) = 0x00000001#32 := by decide +kernel

theorem freqFnRef_noteMax : freqFnRef 1499 = 0x7F76F110#32 := by decide +kernel

theorem isPosFinite_freqFnRef {n : ℤ} (hlo : -1836 ≤ n) (hhi : n ≤ 1499) : isPosFinite (freqFnRef n) = true := by
  have h0 := freqFnRef_mono hlo
  have h1 := freqFnRef_mono hhi
  rw [freqFnRef_noteMin] at h0
  rw [freqFnRef_noteMax] at h1
  exact (isPosFinite_iff _).mpr ⟨h0, h1.trans_lt (by decide)⟩

/-- Settles O32: between the two bounds a pattern lies between two finite ones. -/
theorem rangeBounds : Obligations.RangeBounds := by
  refine ⟨fun n => ?_, freqFnRef_noteMin, freqFnRef_below (by decide), freqFnRef_noteMax, freqFnRef_above (by decide)⟩
  by_cases hlo : n < -1836
  · have h := freqFnRef_below hlo
    exact ⟨iff_of_true h hlo, iff_of_false (h ▸ by decide) (by omega), iff_of_false (h ▸ by decide) (by omega)⟩
  by_cases hhi : 1499 < n
  · have h := freqFnRef_above hhi
    exact ⟨iff_of_false (h ▸ by decide) hlo, iff_of_true h hhi, iff_of_false (h ▸ by decide) (by omega)⟩
  have hfin := isPosFinite_freqFnRef (not_lt.mp hlo) (not_lt.mp hhi)
  have hzero : freqFnRef n ≠ 0x00000000#32 := fun h => absurd (h ▸ hfin) (by decide)
  have hinf : freqFnRef n ≠ 0x7F800000#32 := fun h => absurd (h ▸ hfin) (by decide)
  exact ⟨iff_of_false hzero hlo, iff_of_false hinf hhi, iff_of_true hfin ⟨not_lt.mp hlo, not_lt.mp hhi⟩⟩

/-! ## The required properties -/

theorem f32Val_eq_gridValue {b : Word} (h : b.toNat ≤ infPattern) : ((f32Val b : ℚ) : ℝ) = gridValue b.toNat := by
  rw [← f32Val_ofNat (h.trans_lt (by decide)), BitVec.ofNat_toNat, BitVec.setWidth_eq]

theorem f32Val_pos {b : Word} (h : isPosFinite b = true) : 0 < f32Val b := by
  obtain ⟨h0, hi⟩ := (isPosFinite_iff b).mp h
  have hzero : gridValue 0 = 0 := by norm_num [gridValue, gridSignificand]
  rw [← Rat.cast_pos (K := ℝ), f32Val_eq_gridValue hi.le, ← hzero]
  exact gridValue_strictMono h0

theorem isNaN_of_isPosFinite {b : Word} (h : isPosFinite b = true) : isNaN b = false := by
  obtain ⟨-, hi⟩ := (isPosFinite_iff b).mp h
  have hexp : f32Exp b = b.toNat / 2 ^ 23 := by
    simpa using f32Exp_ofNat (hi.trans (show infPattern < 2 ^ 31 by decide))
  have hne : f32Exp b ≠ 255 := by
    simp only [infPattern] at hi
    omega
  simp [isNaN, hne]

theorem freqFnRef_noteA4 : freqFnRef 69 = 0x43DC0000#32 := by decide +kernel

/-- Up to note 135 the frequency is below 32768 Hz, whose unit of the last place is 2^−9 Hz. -/
theorem freqFnRef_audio_le : (freqFnRef 135).toNat < 0x47000000 := by decide +kernel

theorem freqFnRef_audio_error {n : ℤ} (hlo : -1 ≤ n) (hhi : n ≤ 135) :
    |((f32Val (freqFnRef n) : ℚ) : ℝ) - noteHz n| ≤ 1 / 100 := by
  obtain ⟨h0, hi⟩ := (isPosFinite_iff _).mp (isPosFinite_freqFnRef (n := n) (by omega) (by omega))
  have hlt := (freqFnRef_mono hhi).trans_lt freqFnRef_audio_le
  have hscale : gridScale (freqFnRef n).toNat ≤ -9 := by simp only [gridScale]; omega
  rw [f32Val_eq_gridValue hi.le]
  calc |gridValue (freqFnRef n).toNat - noteHz n|
      ≤ 2 ^ gridScale (freqFnRef n).toNat / 2 := (freqFnRef_roundsTo n).abs_sub_le h0.ne' hi.ne
    _ ≤ 2 ^ (-9 : ℤ) / 2 := by gcongr; exact one_le_two
    _ ≤ 1 / 100 := by norm_num

/-- Settles O33: rounding is monotone, and in the audio range errs by at most half a unit of the last place. -/
theorem freqFnProperties : Obligations.FreqFnProperties := by
  refine ⟨freqFnRef_noteA4, fun m n h => freqFnRef_mono h, fun n => ?_, fun n hlo hhi => freqFnRef_audio_error hlo hhi⟩
  exact (freqFnRef_cases n).imp_right (.imp_right fun ⟨hfin, _⟩ => ⟨hfin, isNaN_of_isPosFinite hfin, f32Val_pos hfin⟩)

/-! ## Octaves -/

theorem noteHz_octave (n : ℤ) : noteHz (n + 12) = 2 * noteHz n := by
  have h : (((n + 12 : ℤ) : ℝ) - 69) / 12 = ((n : ℝ) - 69) / 12 + 1 := by
    push_cast
    ring
  rw [noteHz, h, Real.rpow_add_one two_ne_zero, noteHz]
  ring

/-- The least note whose frequency is normal, and the greatest whose octave is finite, as patterns. -/
theorem freqFnRef_octave_bounds :
    2 ^ 23 < (freqFnRef (-1548)).toNat ∧ (freqFnRef 1487).toNat + 2 ^ 23 < infPattern := by decide +kernel

theorem f32Val_freqFnRef_octave {n : ℤ} (hlo : -1548 ≤ n) (hhi : n ≤ 1487) :
    f32Val (freqFnRef (n + 12)) = 2 * f32Val (freqFnRef n) := by
  obtain ⟨hmin, hmax⟩ := freqFnRef_octave_bounds
  have hnormal := hmin.trans_le (freqFnRef_mono hlo)
  have hfinite := (Nat.add_le_add_right (freqFnRef_mono hhi) _).trans_lt hmax
  have hpattern : (freqFnRef (n + 12)).toNat = (freqFnRef n).toNat + 2 ^ 23 :=
    (noteHz_octave n ▸ freqFnRef_roundsTo (n + 12)).unique ((freqFnRef_roundsTo n).octave hnormal hfinite.le)
  have hcast : ((f32Val (freqFnRef (n + 12)) : ℚ) : ℝ) = ((2 * f32Val (freqFnRef n) : ℚ) : ℝ) := by
    push_cast
    rw [f32Val_eq_gridValue (hpattern ▸ hfinite.le), f32Val_eq_gridValue (by omega), hpattern,
      gridValue_add_octave hnormal.le]
  exact_mod_cast hcast

/-- The lowest A of R127 item 3, 440·2^−134. -/
theorem f32Val_freqFnRef_lowestA : f32Val (freqFnRef (69 + 12 * (-134))) = 440 * (2 : ℚ) ^ (-134 : ℤ) := by
  decide +kernel

theorem f32Val_freqFnRef_octaveOfA {k : ℤ} (hlo : -134 ≤ k) (hhi : k ≤ 119) :
    f32Val (freqFnRef (69 + 12 * k)) = 440 * (2 : ℚ) ^ k := by
  induction k, hlo using Int.leInduction with
  | base => exact f32Val_freqFnRef_lowestA
  | succ k hk ih =>
    rw [show 69 + 12 * (k + 1) = 69 + 12 * k + 12 by ring, f32Val_freqFnRef_octave (by omega) (by omega),
      ih (by omega), zpow_add_one₀ two_ne_zero]
    ring

/-- Settles O34: doubling the real moves the rounded pattern up by one exponent. -/
theorem octaveDoubles : Obligations.OctaveDoubles :=
  ⟨fun _ hlo hhi => f32Val_freqFnRef_octave hlo (by omega), fun _ hlo hhi => f32Val_freqFnRef_octaveOfA hlo hhi⟩

end Sys2Proof.Machine
end

