-- ==== Sys2Proof/Proofs/TokenBuffer.lean ====
section
/-! O20 to O22, O35: the commands on the token (R111, R112, R126) and the truncation to 31 bytes (R113). -/

namespace Sys2Proof.Machine

theorem token_of_tokLen_zero {s : State} (h : s.tokLen = 0#5) : token s = [] := by
  rw [token, h]
  rfl

/-- Settles O20: no byte of TOKBUF lies below TOK_LEN = 0. -/
theorem tokClearEffect : Obligations.TokClearEffect :=
  ⟨rfl, fun _ => ⟨rfl, token_of_tokLen_zero rfl⟩⟩

theorem encode_tokPush (b : Byte) : encode (.tokPush b) = 0x00000002#32 ||| (b.setWidth 32 <<< 8) := by
  revert b
  decide

/-- Settles O21: the byte goes to index TOK_LEN, and nowhere when the buffer is full. -/
theorem tokPushEffect : Obligations.TokPushEffect := by
  intro b s
  have hexec : exec (.tokPush b) s = .next (setLastErr .ok (pushToken b s)) := rfl
  refine ⟨encode_tokPush b, _, hexec, afterCommand_tokPush_frame b s, token_pushToken b s, ?_⟩
  by_cases h : s.tokLen.toNat < Config.tokenCap
  · rw [pushToken_of_lt b s h]
    refine ⟨fun _ => toNat_add_one_of_lt (Nat.succ_lt_succ h), fun hfull => ?_, fun j hj => ?_⟩
    · exact absurd (hfull ▸ h) (lt_irrefl _)
    · exact Vector.getElem?_set_ne h (Ne.symm hj)
  · rw [pushToken_of_full b s h]
    exact ⟨fun hlt => absurd hlt h, fun _ => ⟨rfl, rfl⟩, fun _ _ => rfl⟩

theorem resolve_thirtySpaces_A4 :
    resolve ((List.replicate 30 0x20#8 ++ [0x41#8, 0x34#8]).take 31) = ⟨.invalid, .badOctave, 0, 0x00000000#32⟩ := by
  decide +kernel

theorem resolve_twentyNineSpaces_A4 :
    resolve ((List.replicate 29 0x20#8 ++ [0x41#8, 0x34#8]).take 31) = ⟨.pitch, .noCause, 69, 0x43DC0000#32⟩ := by
  decide +kernel

/-- Settles O22: the run of TOKEN's accesses leaves the first 31 bytes, and TOK_LEN is the token's length. -/
theorem truncationToThirtyOne : Obligations.TruncationToThirtyOne := by
  refine ⟨resolve_thirtySpaces_A4, resolve_twentyNineSpaces_A4, fun s cs rest hr => ?_⟩
  obtain ⟨t, hrun, htok, ht⟩ := run_tokenEvents cs (s := { s with pending := tokenEvents cs ++ rest }) rfl hr
  refine ⟨t, hrun, htok, ?_, ht⟩
  rw [← token_length, htok, List.length_take, Nat.min_comm]

theorem resolveWith_kind_ne_noResult (fn : Int → Word) (t : List Byte) : (resolveWith fn t).kind ≠ .noResult := by
  rcases resolveWith_cases fn t with h | ⟨n, -, -, h⟩ | ⟨c, -, h⟩ <;> rw [h] <;> nofun

theorem resolveWith_cause_of_valid {fn : Int → Word} {t : List Byte} (h : (resolveWith fn t).kind ≠ .invalid) :
    (resolveWith fn t).cause = .noCause := by
  rcases resolveWith_cases fn t with hr | ⟨n, -, -, hr⟩ | ⟨c, -, hr⟩
  · rw [hr]
    rfl
  · rw [hr]
  · exact absurd (congrArg Resolution.kind hr) h

/-- Settles O35: `commitResult` in each kind of token. -/
theorem resolveEffect : Obligations.ResolveEffect := by
  refine ⟨rfl, fun s => ?_⟩
  have hexec : exec .resolve s = .next (commitResult (resolve (token s)) s) := rfl
  have hcause : (resolve (token s)).kind ≠ .invalid → (resolve (token s)).cause = .noCause := resolveWith_cause_of_valid
  refine ⟨fun h => ?_, fun h => ?_, fun h => ?_, resolveWith_kind_ne_noResult freqFn (token s)⟩
  · rw [hexec, commitResult_of_pitch _ _ h, hcause (by rw [h]; nofun)]
    rfl
  · rw [hexec, commitResult_of_rest _ _ h, hcause (by rw [h]; nofun)]
    rfl
  · rw [hexec, commitResult_of_invalid _ _ h]
    rfl

end Sys2Proof.Machine
end

