-- ==== Sys2Proof/Proofs/Resolver.lean ====
section
/-! O24 to O29: the Note Resolver (R114 to R124). `Resolves` says once what `resolve` answers and when; the parts of a
token, its trimmed bytes, accidental and octave field, have a lemma for taking them apart and one for putting them
together. -/

namespace Sys2Proof.Machine

/-! ## Bytes -/

theorem isSpace_iff (c : Byte) :
    isSpace c = true ↔ c = 0x20#8 ∨ c = 0x09#8 ∨ c = 0x0A#8 ∨ c = 0x0B#8 ∨ c = 0x0C#8 ∨ c = 0x0D#8 := by
  revert c
  decide

theorem isDigit_iff (c : Byte) : isDigit c = true ↔ 0x30 ≤ c.toNat ∧ c.toNat ≤ 0x39 := by
  simp only [isDigit, BitVec.le_def, Bool.and_eq_true, decide_eq_true_eq]
  rfl

theorem upper_toNat_of_lower {c : Byte} (h : 0x61 ≤ c.toNat ∧ c.toNat ≤ 0x7A) : (upper c).toNat + 0x20 = c.toNat := by
  have hle : 0x20 ≤ c.toNat := by omega
  rw [upper, if_pos (by simpa [BitVec.le_def] using h), BitVec.toNat_sub_of_le (by simpa [BitVec.le_def] using hle)]
  exact Nat.sub_add_cancel hle

theorem upper_of_not_lower {c : Byte} (h : c.toNat < 0x61 ∨ 0x7A < c.toNat) : upper c = c := by
  rw [upper, if_neg]
  simp only [BitVec.le_def, BitVec.toNat_ofNat]
  omega

@[simp] theorem upper_upper (c : Byte) : upper (upper c) = upper c := by
  revert c
  decide

@[simp] theorem isSpace_upper (c : Byte) : isSpace (upper c) = isSpace c := by
  revert c
  decide

@[simp] theorem isDigit_upper (c : Byte) : isDigit (upper c) = isDigit c := by
  revert c
  decide

@[simp] theorem upper_eq_minus_iff (c : Byte) : upper c = 0x2D#8 ↔ c = 0x2D#8 := by
  revert c
  decide

theorem upper_of_isDigit {c : Byte} (h : isDigit c = true) : upper c = c := by
  obtain ⟨-, hhi⟩ := (isDigit_iff c).mp h
  exact upper_of_not_lower (by omega)

/-- The bytes that start an octave field are no accidentals. -/
theorem not_accidental_of_octave_byte {c : Byte} (h : isDigit c = true ∨ c = 0x2D#8) :
    c ∉ [0x23#8, 0x62#8, 0x42#8] := by
  revert c
  decide

theorem isSpace_of_isDigit {c : Byte} (h : isDigit c = true) : isSpace c = false := by
  revert c
  decide

/-! ## Note letters -/

theorem pitchClass_eq_some_iff (c : Byte) (semi : Nat) :
    pitchClass c = some semi ↔
      (c, semi) ∈ [(0x43#8, 0), (0x44#8, 2), (0x45#8, 4), (0x46#8, 5), (0x47#8, 7), (0x41#8, 9), (0x42#8, 11)] := by
  constructor
  · unfold pitchClass
    split_ifs <;> rintro ⟨⟩ <;> subst c <;> decide
  · simp only [List.mem_cons, List.not_mem_nil, or_false, Prod.mk.injEq]
    rintro (⟨rfl, rfl⟩ | ⟨rfl, rfl⟩ | ⟨rfl, rfl⟩ | ⟨rfl, rfl⟩ | ⟨rfl, rfl⟩ | ⟨rfl, rfl⟩ | ⟨rfl, rfl⟩) <;> rfl

theorem pitchClass_eq_none_iff (c : Byte) :
    pitchClass c = none ↔ c ∉ [0x43#8, 0x44#8, 0x45#8, 0x46#8, 0x47#8, 0x41#8, 0x42#8] := by
  revert c
  decide

theorem exists_pitchClass_iff (c : Byte) :
    (∃ semi, pitchClass c = some semi) ↔ c ∈ [0x43#8, 0x44#8, 0x45#8, 0x46#8, 0x47#8, 0x41#8, 0x42#8] := by
  rw [← Option.ne_none_iff_exists', ne_eq, pitchClass_eq_none_iff, not_not]

theorem isSpace_of_noteLetter {c : Byte} (h : upper c ∈ [0x43#8, 0x44#8, 0x45#8, 0x46#8, 0x47#8, 0x41#8, 0x42#8]) :
    isSpace c = false := by
  revert c
  decide

/-! ## Trimming -/

/-- What stands between whitespace and has none at its ends is the trimmed token. -/
theorem trim_append {ws ws' cs : List Byte} {c : Byte} (hws : ∀ x ∈ ws, isSpace x = true)
    (hws' : ∀ x ∈ ws', isSpace x = true) (hc : isSpace c = false)
    (hlast : ∀ x, (c :: cs).getLast? = some x → isSpace x = false) : trim (ws ++ (c :: cs) ++ ws') = c :: cs := by
  have hleft : (ws ++ (c :: cs) ++ ws').dropWhile isSpace = c :: cs ++ ws' := by
    rw [List.append_assoc, List.dropWhile_append_of_pos hws, List.cons_append,
      List.dropWhile_cons_of_neg (Bool.not_eq_true _ ▸ hc)]
  rw [trim, hleft, List.reverse_append, List.dropWhile_append_of_pos (by simpa using hws')]
  refine List.rdropWhile_eq_self_iff.mpr fun hl => ?_
  rw [hlast _ (List.getLast?_eq_getLast_of_ne_nil hl)]
  exact Bool.false_ne_true

theorem trim_split (t : List Byte) :
    ∃ pre post, t = pre ++ trim t ++ post ∧ (∀ c ∈ pre, isSpace c = true) ∧ (∀ c ∈ post, isSpace c = true) := by
  refine ⟨t.takeWhile isSpace, (t.dropWhile isSpace).rtakeWhile isSpace, ?_, fun _ => List.mem_takeWhile_imp,
    fun _ => List.mem_rtakeWhile_imp⟩
  have hright : trim t ++ (t.dropWhile isSpace).rtakeWhile isSpace = t.dropWhile isSpace :=
    List.rdropWhile_append_rtakeWhile
  rw [List.append_assoc, hright, List.takeWhile_append_dropWhile]

theorem isSpace_head_trim {t : List Byte} {c : Byte} (h : (trim t).head? = some c) : isSpace c = false := by
  obtain ⟨rest, hrest⟩ := List.rdropWhile_prefix isSpace (l := t.dropWhile isSpace)
  have hhead : (t.dropWhile isSpace).head? = some c := by
    rw [← hrest, List.head?_append, show (t.dropWhile isSpace).rdropWhile isSpace = trim t from rfl, h, Option.some_or]
  have hnot := List.head?_dropWhile_not isSpace t
  rwa [hhead] at hnot

theorem isSpace_getLast_trim {t : List Byte} {c : Byte} (h : (trim t).getLast? = some c) : isSpace c = false := by
  rw [trim, List.getLast?_reverse] at h
  have hnot := List.head?_dropWhile_not isSpace (t.dropWhile isSpace).reverse
  rwa [h] at hnot

/-- Settles O24: trim drops from the left, then from the right. -/
theorem trimSpec : Obligations.TrimSpec := fun t =>
  ⟨trim_split t, fun _ => isSpace_head_trim, fun _ => isSpace_getLast_trim, isSpace_iff⟩

theorem trim_map_upper (t : List Byte) : trim (t.map upper) = (trim t).map upper := by
  have hspace : isSpace ∘ upper = isSpace := funext isSpace_upper
  simp only [trim, List.dropWhile_map, ← List.map_reverse, hspace]

/-! ## Rests -/

theorem isRest_iff (s : List Byte) :
    isRest s = true ↔ s.map upper = [0x52#8] ∨ s.map upper = [0x52#8, 0x45#8, 0x53#8, 0x54#8] := by
  simp [isRest, restTokens]

theorem isRest_map_upper (s : List Byte) : isRest (s.map upper) = isRest s := by
  have hupper : upper ∘ upper = upper := funext upper_upper
  rw [isRest, isRest, List.map_map, hupper]

/-- R is no note letter. -/
theorem isRest_of_noteLetter {c : Byte} {semi : Nat} (h : pitchClass (upper c) = some semi) (cs : List Byte) :
    isRest (c :: cs) = false := by
  rw [← Bool.not_eq_true, isRest_iff, List.map_cons]
  rintro (hr | hr) <;> rw [(List.cons.inj hr).1] at h <;> cases h

/-! ## The accidental -/

theorem accidental_split (cs : List Byte) :
    ∃ acc, cs = acc ++ (accidental cs).2 ∧
      (acc, (accidental cs).1) ∈ [([], 0), ([0x23#8], 1), ([0x62#8], -1), ([0x42#8], -1)] := by
  cases cs with
  | nil => exact ⟨[], rfl, by decide⟩
  | cons c cs =>
    simp only [accidental]
    split_ifs with hsharp hflat
    · exact ⟨[0x23#8], hsharp ▸ rfl, by simp⟩
    · rcases hflat with rfl | rfl
      · exact ⟨[0x62#8], rfl, by simp⟩
      · exact ⟨[0x42#8], rfl, by simp⟩
    · exact ⟨[], rfl, by simp⟩

theorem accidental_append {acc o : List Byte} {a : Int}
    (h : (acc, a) ∈ [([], 0), ([0x23#8], 1), ([0x62#8], -1), ([0x42#8], -1)])
    (ho : ∀ c, o.head? = some c → c ∉ [0x23#8, 0x62#8, 0x42#8]) : accidental (acc ++ o) = (a, o) := by
  simp only [List.mem_cons, List.not_mem_nil, or_false, Prod.mk.injEq] at h
  rcases h with ⟨rfl, rfl⟩ | ⟨rfl, rfl⟩ | ⟨rfl, rfl⟩ | ⟨rfl, rfl⟩
  · cases o with
    | nil => rfl
    | cons c cs =>
      have hc := ho c rfl
      simp only [List.mem_cons, List.not_mem_nil, or_false, not_or] at hc
      simp [accidental, hc]
  all_goals rfl

theorem accidental_map_upper (cs : List Byte) :
    accidental (cs.map upper) = ((accidental cs).1, (accidental cs).2.map upper) := by
  cases cs with
  | nil => rfl
  | cons c cs =>
    have hsharp : upper c = 0x23#8 ↔ c = 0x23#8 := by revert c; decide
    have hflat : (upper c = 0x62#8 ∨ upper c = 0x42#8) ↔ (c = 0x62#8 ∨ c = 0x42#8) := by revert c; decide
    simp only [List.map_cons, accidental, hsharp, hflat]
    split_ifs <;> rfl

/-! ## The octave field -/

theorem allDigits_iff (ds : List Byte) : allDigits ds = true ↔ ds ≠ [] ∧ ∀ d ∈ ds, isDigit d = true := by
  simp [allDigits]

theorem decimal_eq_ofDigits (ds : List Byte) :
    decimal ds = Nat.ofDigits 10 (ds.reverse.map fun d => d.toNat - 0x30) := by
  induction ds using List.reverseRecOn with
  | nil => rfl
  | append_singleton ds d ih =>
    have hstep : decimal (ds ++ [d]) = 10 * decimal ds + (d.toNat - 0x30) := by simp [decimal]
    rw [hstep, ih, List.reverse_concat, List.map_cons, Nat.ofDigits_cons, add_comm]

/-- The octave field as it is written: an optional minus, then digits (R119). -/
def octaveField (neg : Bool) (ds : List Byte) : List Byte := (if neg then [0x2D#8] else []) ++ ds

/-- The value of an octave field. -/
def octaveValue (neg : Bool) (ds : List Byte) : Int := if neg then -(decimal ds : Int) else decimal ds

theorem octave_octaveField (neg : Bool) {ds : List Byte} (h : allDigits ds = true) :
    octave (octaveField neg ds) = some (octaveValue neg ds) := by
  cases neg with
  | true => simp [octaveField, octaveValue, octave, h]
  | false =>
    cases ds with
    | nil => cases h
    | cons d ds =>
      have hd : d ≠ 0x2D#8 := by
        rintro rfl
        exact absurd ((allDigits_iff _).mp h).2 (by simp [isDigit])
      simp [octaveField, octaveValue, octave, hd, h]

theorem exists_octaveField_of_octave {o : List Byte} {v : Int} (h : octave o = some v) :
    ∃ neg ds, o = octaveField neg ds ∧ allDigits ds = true := by
  cases o with
  | nil => cases h
  | cons c cs =>
    simp only [octave] at h
    split_ifs at h with hminus hcs hds
    · exact ⟨true, cs, by rw [hminus]; rfl, hcs⟩
    · exact ⟨false, c :: cs, rfl, hds⟩

theorem octaveField_head {neg : Bool} {ds : List Byte} (h : allDigits ds = true) {c : Byte}
    (hc : (octaveField neg ds).head? = some c) : c ∉ [0x23#8, 0x62#8, 0x42#8] := by
  apply not_accidental_of_octave_byte
  cases neg with
  | true => exact .inr (Option.some.inj hc).symm
  | false => exact .inl (((allDigits_iff ds).mp h).2 c (List.mem_of_head? hc))

theorem allDigits_map_upper (ds : List Byte) : allDigits (ds.map upper) = allDigits ds := by
  have hdigit : isDigit ∘ upper = isDigit := funext isDigit_upper
  simp only [allDigits, List.all_map, List.isEmpty_map, hdigit]

theorem map_upper_of_allDigits {ds : List Byte} (h : allDigits ds = true) : ds.map upper = ds :=
  (List.map_congr_left fun d hd => upper_of_isDigit (((allDigits_iff ds).mp h).2 d hd)).trans (List.map_id ds)

theorem octave_map_upper (o : List Byte) : octave (o.map upper) = octave o := by
  have hdecimal (ds : List Byte) (h : allDigits ds = true) : decimal (ds.map upper) = decimal ds := by
    rw [map_upper_of_allDigits h]
  cases o with
  | nil => rfl
  | cons c cs =>
    simp only [List.map_cons, octave, upper_eq_minus_iff]
    rw [← List.map_cons]
    simp only [allDigits_map_upper]
    split_ifs with hminus hcs hds
    · rw [hdecimal cs hcs]
    · rfl
    · rw [hdecimal _ hds]
    · rfl

/-! ## What `resolve` answers -/

/-- The answers of `resolve` and when it gives them (R114): at most one applies to a token. -/
inductive Resolves (fn : Int → Word) (t : List Byte) : Resolution → Prop
  | rest (hrest : isRest (trim t) = true) : Resolves fn t restResult
  | badLetter (hrest : isRest (trim t) = false) (hc : ∀ c, (trim t).head? = some c → pitchClass (upper c) = none) :
    Resolves fn t (invalidResult .badLetter)
  | badOctave {c : Byte} {cs : List Byte} {semi : Nat} (ht : trim t = c :: cs) (hc : pitchClass (upper c) = some semi)
    (ho : octave (accidental cs).2 = none) : Resolves fn t (invalidResult .badOctave)
  | note {c : Byte} {cs : List Byte} {semi : Nat} {oct : Int} (ht : trim t = c :: cs)
    (hc : pitchClass (upper c) = some semi) (ho : octave (accidental cs).2 = some oct) :
    Resolves fn t (pitchResult fn (noteNumber oct semi (accidental cs).1))

theorem resolves_resolveWith (fn : Int → Word) (t : List Byte) : Resolves fn t (resolveWith fn t) := by
  simp only [resolveWith]
  split_ifs with hrest
  · exact .rest hrest
  rw [Bool.not_eq_true] at hrest
  split
  case h_1 ht => exact .badLetter hrest (by simp [ht])
  case h_2 c cs ht =>
    split
    case h_1 hc => exact .badLetter hrest (by simpa [ht] using hc)
    case h_2 semi hc =>
      split
      case h_1 ho => exact .badOctave ht hc ho
      case h_2 oct ho => exact .note ht hc ho

theorem Resolves.resolveWith_eq {fn : Int → Word} {t : List Byte} {r : Resolution} (h : Resolves fn t r) :
    resolveWith fn t = r := by
  cases h with
  | rest hrest => simp [resolveWith, hrest]
  | badLetter hrest hc =>
    cases ht : trim t with
    | nil => simp [resolveWith, ht, ht ▸ hrest]
    | cons c cs => simp [resolveWith, ht, ht ▸ hrest, hc c (by rw [ht]; rfl)]
  | badOctave ht hc ho => simp [resolveWith, ht, isRest_of_noteLetter hc, hc, ho]
  | note ht hc ho => simp [resolveWith, ht, isRest_of_noteLetter hc, hc, ho]

/-- The result of a note number is a pitch or out of range. -/
theorem pitchResult_cases (fn : Int → Word) (n : Int) :
    pitchResult fn n = ⟨.pitch, .noCause, n, fn n⟩ ∨ pitchResult fn n = invalidResult .range := by
  rw [pitchResult]
  split
  · exact .inr rfl
  · exact .inl rfl

theorem pitchResult_kind_ne_rest (fn : Int → Word) (n : Int) : (pitchResult fn n).kind ≠ .rest := by
  rcases pitchResult_cases fn n with h | h <;> rw [h] <;> nofun

theorem pitchResult_cause (fn : Int → Word) (n : Int) :
    (pitchResult fn n).cause = .noCause ∨ (pitchResult fn n).cause = .range := by
  rcases pitchResult_cases fn n with h | h <;> rw [h]
  · exact .inl rfl
  · exact .inr rfl

theorem pitchResult_pitch_or_range (fn : Int → Word) (n : Int) :
    (pitchResult fn n).kind = .pitch ∨ (pitchResult fn n).cause = .range := by
  rcases pitchResult_cases fn n with h | h <;> rw [h]
  · exact .inl rfl
  · exact .inr rfl

/-! ## Rests and tokens without a note letter -/

theorem resolveWith_kind_rest_iff (fn : Int → Word) (t : List Byte) :
    (resolveWith fn t).kind = .rest ↔ isRest (trim t) = true := by
  have h := resolves_resolveWith fn t
  generalize resolveWith fn t = r at h
  cases h with
  | rest hrest => exact iff_of_true rfl hrest
  | badLetter hrest _ => exact iff_of_false nofun (by rw [hrest]; nofun)
  | badOctave ht hc _ => exact iff_of_false nofun (by rw [ht, isRest_of_noteLetter hc]; nofun)
  | note ht hc _ => exact iff_of_false (pitchResult_kind_ne_rest fn _) (by rw [ht, isRest_of_noteLetter hc]; nofun)

/-- Settles O25: of the answers only a rest's has that kind. -/
theorem restTokens_spec : Obligations.RestTokens :=
  ⟨fun fn t => (resolveWith_kind_rest_iff fn t).trans (isRest_iff _), fun _ => ⟨upper_toNat_of_lower, upper_of_not_lower⟩⟩

/-- Settles O26: the first trimmed byte is a note letter exactly when `resolve` gets past R117. -/
theorem badLetterTokens : Obligations.BadLetterTokens := by
  intro fn t
  have h := resolves_resolveWith fn t
  generalize resolveWith fn t = r at h
  cases h with
  | rest _ => exact iff_of_false nofun fun ⟨hkind, _⟩ => hkind rfl
  | badLetter _ hc => exact iff_of_true rfl ⟨nofun, fun c hhead => (pitchClass_eq_none_iff _).mp (hc c hhead)⟩
  | badOctave ht hc _ =>
    exact iff_of_false nofun fun ⟨_, hno⟩ => hno _ (by rw [ht]; rfl) ((exists_pitchClass_iff _).mp ⟨_, hc⟩)
  | note ht hc _ =>
    refine iff_of_false ?_ fun ⟨_, hno⟩ => hno _ (by rw [ht]; rfl) ((exists_pitchClass_iff _).mp ⟨_, hc⟩)
    rcases pitchResult_cause fn _ with hr | hr <;> rw [hr] <;> nofun

/-! ## Note tokens -/

/-- The trimmed bytes of a note token (R117 to R119) between any whitespace. -/
theorem trim_noteToken {ws ws' acc ds : List Byte} {c : Byte} (neg : Bool) (hws : ∀ x ∈ ws, isSpace x = true)
    (hws' : ∀ x ∈ ws', isSpace x = true) (hc : isSpace c = false) (hds : allDigits ds = true) :
    trim (ws ++ (c :: (acc ++ octaveField neg ds)) ++ ws') = c :: (acc ++ octaveField neg ds) := by
  obtain ⟨hne, hdigits⟩ := (allDigits_iff ds).mp hds
  refine trim_append hws hws' hc fun x hx => isSpace_of_isDigit (hdigits x (List.mem_of_getLast? ?_))
  rwa [octaveField, ← List.append_assoc, ← List.cons_append, List.getLast?_append_of_ne_nil _ hne] at hx

/-- Settles O27: the trimmed bytes come apart into letter, accidental and octave field as they were put together. -/
theorem noteTokensResolve : Obligations.NoteTokensResolve := by
  intro fn ws ws' acc ds c semi a neg hws hws' hletter hacc hne hdigits value oct n
  have hds : allDigits ds = true := (allDigits_iff ds).mpr ⟨hne, fun d hd => (isDigit_iff d).mpr (hdigits d hd)⟩
  have hc : pitchClass (upper c) = some semi := (pitchClass_eq_some_iff _ _).mpr hletter
  have hspace : isSpace c = false := isSpace_of_noteLetter ((exists_pitchClass_iff _).mp ⟨semi, hc⟩)
  have hsplit : accidental (acc ++ octaveField neg ds) = (a, octaveField neg ds) :=
    accidental_append hacc fun _ => octaveField_head hds
  have hoct : octave (accidental (acc ++ octaveField neg ds)).2 = some (octaveValue neg ds) := by
    rw [hsplit, octave_octaveField neg hds]
  have hresolve := (Resolves.note (fn := fn) (trim_noteToken neg hws hws' hspace hds) hc hoct).resolveWith_eq
  rw [hsplit, octaveValue, decimal_eq_ofDigits] at hresolve
  rw [List.append_assoc acc]
  exact hresolve

theorem exists_accidental_of_mem {acc : List Byte} (h : acc ∈ [[], [0x23#8], [0x62#8], [0x42#8]]) :
    ∃ a : Int, (acc, a) ∈ [([], 0), ([0x23#8], 1), ([0x62#8], -1), ([0x42#8], -1)] := by
  simp only [List.mem_cons, List.not_mem_nil, or_false] at h
  rcases h with rfl | rfl | rfl | rfl
  exacts [⟨0, by simp⟩, ⟨1, by simp⟩, ⟨-1, by simp⟩, ⟨-1, by simp⟩]

theorem pitch_or_range_of_noteShape (fn : Int → Word) {t : List Byte} (h : NoteShape t) :
    (resolveWith fn t).kind = .pitch ∨ (resolveWith fn t).cause = .range := by
  obtain ⟨ws, ws', acc, sign, ds, c, rfl, hws, hws', hc, hacc, hsign, hne, hdigits⟩ := h
  obtain ⟨semi, hsemi⟩ := (exists_pitchClass_iff _).mpr hc
  obtain ⟨a, ha⟩ := exists_accidental_of_mem hacc
  obtain ⟨neg, rfl⟩ : ∃ neg : Bool, sign = if neg then [0x2D#8] else [] := by
    simp only [List.mem_cons, List.not_mem_nil, or_false] at hsign
    exact hsign.elim (⟨false, ·⟩) (⟨true, ·⟩)
  rw [noteTokensResolve fn ws ws' acc ds c semi a neg hws hws' ((pitchClass_eq_some_iff _ _).mp hsemi) ha hne hdigits]
  exact pitchResult_pitch_or_range fn _

theorem noteShape_of_trim {t cs : List Byte} {c : Byte} {semi : Nat} {oct : Int} (ht : trim t = c :: cs)
    (hc : pitchClass (upper c) = some semi) (ho : octave (accidental cs).2 = some oct) : NoteShape t := by
  obtain ⟨ws, ws', hsplit, hws, hws'⟩ := trim_split t
  obtain ⟨acc, hcs, hacc⟩ := accidental_split cs
  obtain ⟨neg, ds, hfield, hds⟩ := exists_octaveField_of_octave ho
  obtain ⟨hne, hdigits⟩ := (allDigits_iff ds).mp hds
  refine ⟨ws, ws', acc, if neg then [0x2D#8] else [], ds, c, ?_, hws, hws', (exists_pitchClass_iff _).mp ⟨semi, hc⟩, ?_,
    ?_, hne, fun d hd => (isDigit_iff d).mp (hdigits d hd)⟩
  · rw [hsplit, ht, hcs, hfield, octaveField, List.append_assoc acc]
  · exact List.mem_map_of_mem (f := Prod.fst) hacc
  · cases neg <;> simp

theorem pitch_or_range_iff_noteShape (fn : Int → Word) (t : List Byte) :
    ((resolveWith fn t).kind = .pitch ∨ (resolveWith fn t).cause = .range) ↔ NoteShape t := by
  refine ⟨?_, pitch_or_range_of_noteShape fn⟩
  have h := resolves_resolveWith fn t
  generalize resolveWith fn t = r at h
  cases h with
  | note ht hc ho => exact fun _ => noteShape_of_trim ht hc ho
  | _ => exact fun h => by rcases h with h | h <;> cases h

/-- Settles O28: past the letter only the octave field decides. -/
theorem onlyNoteTokensResolve : Obligations.OnlyNoteTokensResolve := by
  intro fn t
  refine ⟨pitch_or_range_iff_noteShape fn t, ?_⟩
  rw [← pitch_or_range_iff_noteShape fn t]
  have h := resolves_resolveWith fn t
  generalize resolveWith fn t = r at h
  cases h with
  | rest _ => exact iff_of_false nofun fun ⟨hkind, _⟩ => hkind rfl
  | badLetter _ hc =>
    exact iff_of_false nofun fun ⟨_, ⟨c, hhead, hletter⟩, _⟩ => (pitchClass_eq_none_iff _).mp (hc c hhead) hletter
  | badOctave ht hc _ =>
    refine iff_of_true rfl ⟨nofun, ⟨_, by rw [ht]; rfl, (exists_pitchClass_iff _).mp ⟨_, hc⟩⟩, ?_⟩
    rintro (h | h) <;> cases h
  | note _ _ _ =>
    refine iff_of_false ?_ fun ⟨_, _, hno⟩ => hno (pitchResult_pitch_or_range fn _)
    rcases pitchResult_cause fn _ with hr | hr <;> rw [hr] <;> nofun

/-! ## Case -/

theorem Resolves.map_upper {fn : Int → Word} {t : List Byte} {r : Resolution} (h : Resolves fn t r) :
    Resolves fn (t.map upper) r := by
  cases h with
  | rest hrest => exact .rest (by rwa [trim_map_upper, isRest_map_upper])
  | badLetter hrest hc =>
    refine .badLetter (by rwa [trim_map_upper, isRest_map_upper]) fun c hhead => ?_
    rw [trim_map_upper, List.head?_map, Option.map_eq_some_iff] at hhead
    obtain ⟨d, hd, rfl⟩ := hhead
    rw [upper_upper, hc d hd]
  | @badOctave c cs semi ht hc ho =>
    refine .badOctave (cs := cs.map upper) (by rw [trim_map_upper, ht, List.map_cons]) (by rwa [upper_upper]) ?_
    rwa [accidental_map_upper, octave_map_upper]
  | @note c cs semi oct ht hc ho =>
    have hacc : (accidental (cs.map upper)).1 = (accidental cs).1 := by rw [accidental_map_upper]
    rw [← hacc]
    refine .note (by rw [trim_map_upper, ht, List.map_cons]) (by rwa [upper_upper]) ?_
    rwa [accidental_map_upper, octave_map_upper]

/-- Settles O29: every test that `resolve` makes of a byte gives the same on its upper case. -/
theorem caseInsensitive : Obligations.CaseInsensitive := fun fn t => (resolves_resolveWith fn t).map_upper.resolveWith_eq

end Sys2Proof.Machine
end

