-- ==== Sys2Proof/Proofs/DividerSearch.lean ====
section
/-! O36 to O39: the divider search (R143 to R146) over the rationals. `le_cand_iff` says when the candidate reaches a
period; both ends of the fitting range, and so the clamp and the chosen divider, are instances of it. -/

namespace Sys2Proof.Machine

/-! ## The candidate -/

theorem roundHalfUp_eq_floor (num : ℕ) {den : ℕ} (h : 0 < den) :
    (roundHalfUp num den : ℤ) = ⌊(num : ℚ) / den + 1 / 2⌋ := by
  have hq : (num : ℚ) / den + 1 / 2 = ((2 * num + den : ℕ) : ℚ) / ((2 * den : ℕ) : ℚ) := by
    push_cast
    field_simp
  rw [hq, Rat.floor_natCast_div_natCast]
  rfl

/-- Moving a power of two to the side where it is an integer keeps the quotient. -/
theorem div_mul_zpow_eq_toNat (x y : ℚ) (e : ℤ) :
    x * 2 ^ (-e).toNat / (y * 2 ^ e.toNat) = x / (y * (2 : ℚ) ^ e) := by
  obtain ⟨n, rfl | rfl⟩ := e.eq_nat_or_neg
  · simp
  · simp [div_eq_mul_inv, mul_comm, mul_left_comm]

theorem f32Sign_of_isPosFinite {b : Word} (h : isPosFinite b = true) : f32Sign b = false := by
  have hlt := toNat_lt_of_zero_or_isPosFinite (.inr h)
  simpa using f32Sign_ofNat (q := b.toNat) (by simp only [infPattern] at hlt; omega)

theorem significand_pos {b : Word} (h : isPosFinite b = true) : 0 < significand b := by
  have hpos := f32Val_pos h
  rw [f32Val_eq_significand (f32Sign_of_isPosFinite h)] at hpos
  exact_mod_cast pos_of_mul_pos_left hpos (by positivity)

/-- Settles O36: `cand` keeps val(b)'s power of two on the side where it is an integer. -/
theorem candidateExact : Obligations.CandidateExact := by
  intro clk d b hd hb
  have hden : 0 < d * significand b * 2 ^ (scale b).toNat := by
    have := significand_pos hb
    positivity
  rw [cand, roundHalfUp_eq_floor _ hden, f32Val_eq_significand (f32Sign_of_isPosFinite hb)]
  push_cast
  rw [div_mul_zpow_eq_toNat, mul_assoc]

/-- When the candidate reaches a period m. -/
theorem le_cand_iff {clk d : ℕ} {b : Word} (hd : 0 < d) (hb : isPosFinite b = true) (m : ℤ) :
    m ≤ cand clk d b ↔ (m + 1 / 2 : ℚ) * (d * f32Val b) ≤ clk := by
  have hdf : 0 < (d : ℚ) * f32Val b := mul_pos (mod_cast hd) (f32Val_pos hb)
  rw [candidateExact clk d b hd hb, le_sub_iff_add_le, Int.le_floor, ← le_div_iff₀ hdf]
  push_cast
  constructor <;> intro h <;> linarith

/-! ## The first candidate that fits -/

theorem fits_iff (p : ℤ) : fits p = true ↔ 0 ≤ p ∧ p ≤ 65535 := by
  simp [fits]

theorem searchFrom_of_first {clk : ℕ} {b : Word} {j k d : ℕ} (hj : j < k)
    (hfit : fits (cand clk (2 ^ j * d) b) = true) (hmin : ∀ i < j, fits (cand clk (2 ^ i * d) b) = false) :
    searchFrom clk b k d = (2 ^ j * d, (cand clk (2 ^ j * d) b).toNat) := by
  induction j generalizing k d with
  | zero =>
    obtain ⟨k, rfl⟩ := Nat.exists_eq_succ_of_ne_zero hj.ne'
    simp only [pow_zero, one_mul] at hfit ⊢
    rw [searchFrom, if_pos hfit]
  | succ j ih =>
    obtain ⟨k, rfl⟩ := Nat.exists_eq_succ_of_ne_zero (Nat.ne_zero_of_lt hj)
    have hdouble (i : ℕ) : 2 ^ (i + 1) * d = 2 ^ i * (2 * d) := by ring
    have h0 : fits (cand clk d b) = false := by simpa using hmin 0 j.succ_pos
    rw [hdouble] at hfit ⊢
    rw [searchFrom, h0, if_neg Bool.false_ne_true]
    exact ih (Nat.lt_of_succ_lt_succ hj) hfit fun i hi => hdouble i ▸ hmin (i + 1) (Nat.succ_lt_succ hi)

theorem searchFrom_of_none {clk : ℕ} {b : Word} {k d : ℕ} (h : ∀ j < k, fits (cand clk (2 ^ j * d) b) = false) :
    searchFrom clk b k d = clampProgram := by
  induction k generalizing d with
  | zero => rfl
  | succ k ih =>
    have h0 : fits (cand clk d b) = false := by simpa using h 0 k.succ_pos
    rw [searchFrom, h0, if_neg Bool.false_ne_true]
    refine ih fun j hj => ?_
    rw [show 2 ^ j * (2 * d) = 2 ^ (j + 1) * d by ring]
    exact h (j + 1) (Nat.succ_lt_succ hj)

theorem search_of_first {clk : ℕ} {b : Word} {k : ℕ} (hk : k ≤ 8)
    (hfit : 0 ≤ cand clk (2 ^ k) b ∧ cand clk (2 ^ k) b ≤ 65535)
    (hmin : ∀ j < k, ¬(0 ≤ cand clk (2 ^ j) b ∧ cand clk (2 ^ j) b ≤ 65535)) :
    search clk b = (2 ^ k, (cand clk (2 ^ k) b).toNat) := by
  simp only [← fits_iff, Bool.not_eq_true] at hfit hmin
  simpa [search] using searchFrom_of_first (d := 1) (Nat.lt_succ_of_le hk) (by simpa using hfit) (by simpa using hmin)

theorem search_of_none {clk : ℕ} {b : Word}
    (h : ∀ j ≤ 8, ¬(0 ≤ cand clk (2 ^ j) b ∧ cand clk (2 ^ j) b ≤ 65535)) : search clk b = clampProgram := by
  simp only [← fits_iff, Bool.not_eq_true] at h
  exact searchFrom_of_none fun j hj => by simpa using h j (Nat.le_of_lt_succ hj)

/-- Settles O37: the least of the nine trials that fits, if any does. -/
theorem searchFirstFit : Obligations.SearchFirstFit := by
  intro clk b
  by_cases h : ∃ k ≤ 8, 0 ≤ cand clk (2 ^ k) b ∧ cand clk (2 ^ k) b ≤ 65535
  · obtain ⟨hk, hfit⟩ := Nat.find_spec h
    have hmin : ∀ j < Nat.find h, ¬(0 ≤ cand clk (2 ^ j) b ∧ cand clk (2 ^ j) b ≤ 65535) :=
      fun j hj hj' => Nat.find_min h hj ⟨hj.le.trans hk, hj'⟩
    exact .inl ⟨Nat.find h, hk, hfit.1, hfit.2, hmin, search_of_first hk hfit hmin⟩
  · have hnone : ∀ j ≤ 8, ¬(0 ≤ cand clk (2 ^ j) b ∧ cand clk (2 ^ j) b ≤ 65535) :=
      fun j hj hfit => h ⟨j, hj, hfit⟩
    exact .inr ⟨hnone, search_of_none hnone⟩

/-! ## Which divider is chosen -/

section
variable {clk : ℕ} {b : Word} (hb : isPosFinite b = true)
include hb

/-- The least period is reached at every frequency up to 2S/d. -/
theorem cand_nonneg_iff (k : ℕ) : 0 ≤ cand clk (2 ^ k) b ↔ 2 ^ k * f32Val b ≤ 2 * clk := by
  rw [le_cand_iff (Nat.two_pow_pos k) hb]
  push_cast
  constructor <;> intro h <;> linarith

/-- The greatest period is not passed at frequencies above S/(65536.5·d). -/
theorem cand_le_topMax_iff (k : ℕ) :
    cand clk (2 ^ k) b ≤ 65535 ↔ (clk : ℚ) / (2 ^ k * (131073 / 2)) < f32Val b := by
  rw [← Int.lt_add_one_iff, ← not_le, le_cand_iff (Nat.two_pow_pos k) hb, not_le, div_lt_iff₀ (by positivity)]
  push_cast
  constructor <;> intro h <;> linarith

/-- Above 2S no candidate reaches 0; up to S/16777344 the divider 256, and so every other, passes the greatest period. -/
theorem no_cand_fits (h : 2 * (clk : ℚ) < f32Val b ∨ f32Val b ≤ (clk : ℚ) / 16777344) (j : ℕ) (hj : j ≤ 8) :
    ¬(0 ≤ cand clk (2 ^ j) b ∧ cand clk (2 ^ j) b ≤ 65535) := by
  have hf := f32Val_pos hb
  rw [cand_nonneg_iff hb, cand_le_topMax_iff hb]
  rintro ⟨hlow, hhigh⟩
  obtain h | h := h
  · have : f32Val b ≤ 2 ^ j * f32Val b := le_mul_of_one_le_left hf.le (one_le_pow₀ one_le_two)
    linarith
  · have : (clk : ℚ) / 16777344 ≤ clk / (2 ^ j * (131073 / 2)) := by
      gcongr
      calc (2 : ℚ) ^ j * (131073 / 2) ≤ 2 ^ 8 * (131073 / 2) := by gcongr; exact one_le_two
        _ = 16777344 := by norm_num
    linarith

/-- A divider one doubling above one whose candidate is too large has a candidate of at least half the range. -/
theorem le_cand_of_prev_too_large {k : ℕ} (h : f32Val b ≤ (clk : ℚ) / (2 ^ k * (131073 / 2))) :
    32767 ≤ cand clk (2 ^ (k + 1)) b := by
  rw [le_div_iff₀ (by positivity)] at h
  have hpos : 0 < 2 ^ k * f32Val b := mul_pos (by positivity) (f32Val_pos hb)
  rw [le_cand_iff (Nat.two_pow_pos _) hb]
  push_cast
  rw [pow_succ]
  linarith

/-- Between the clamps the search takes the least divider whose candidate is not too large; it is not too small either. -/
theorem search_between_clamps (hhi : f32Val b ≤ 2 * (clk : ℚ)) (hlo : (clk : ℚ) / 16777344 < f32Val b) :
    ∃ k ≤ 8, (cand clk (2 ^ k) b ≤ 65535 ∧ ∀ j < k, ¬cand clk (2 ^ j) b ≤ 65535) ∧
      0 ≤ cand clk (2 ^ k) b ∧ (1 ≤ k → 32767 ≤ cand clk (2 ^ k) b) ∧
      search clk b = (2 ^ k, (cand clk (2 ^ k) b).toNat) := by
  have hlast : cand clk (2 ^ 8) b ≤ 65535 := (cand_le_topMax_iff hb 8).mpr (by convert hlo using 2; norm_num)
  have hex : ∃ k, cand clk (2 ^ k) b ≤ 65535 := ⟨8, hlast⟩
  have hk : Nat.find hex ≤ 8 := Nat.find_min' hex hlast
  have hmin : ∀ j < Nat.find hex, ¬cand clk (2 ^ j) b ≤ 65535 := fun j hj => Nat.find_min hex hj
  have hfit := Nat.find_spec hex
  generalize Nat.find hex = k at *
  have hhalf : 1 ≤ k → 32767 ≤ cand clk (2 ^ k) b := fun h1 => by
    obtain ⟨j, rfl⟩ := Nat.exists_eq_add_of_le' h1
    have hprev := hmin j j.lt_succ_self
    rw [cand_le_topMax_iff hb, not_lt] at hprev
    exact le_cand_of_prev_too_large hb hprev
  have hnonneg : 0 ≤ cand clk (2 ^ k) b := by
    rcases Nat.eq_zero_or_pos k with rfl | hpos
    · exact (cand_nonneg_iff hb 0).mpr (by simpa using hhi)
    · exact le_trans (by norm_num) (hhalf hpos)
  exact ⟨k, hk, ⟨hfit, hmin⟩, hnonneg, hhalf, search_of_first hk ⟨hnonneg, hfit⟩ fun j hj h => hmin j hj h.2⟩

end

/-- Settles O38: between the clamps the search finds a divider, and beyond them no candidate fits. -/
theorem whichDivider : Obligations.WhichDivider := by
  intro clk b _ hb
  refine ⟨⟨fun hnone => ?_, no_cand_fits hb⟩, fun hhi hlo => ?_⟩
  · by_contra! hbetween
    obtain ⟨k, hk, ⟨hfit, -⟩, hnonneg, -⟩ := search_between_clamps hb hbetween.1 hbetween.2
    exact hnone k hk ⟨hnonneg, hfit⟩
  · obtain ⟨k, hk, ⟨hfit, hmin⟩, hnonneg, hhalf, hsearch⟩ := search_between_clamps hb hhi hlo
    have hexact := candidateExact clk (2 ^ k) b (Nat.two_pow_pos k) hb
    push_cast at hexact
    simp only [cand_le_topMax_iff hb, not_lt] at hmin
    refine ⟨k, hk, (cand_le_topMax_iff hb k).mp hfit, hmin, hexact ▸ hsearch, ?_⟩
    simp only [hsearch]
    exact ⟨fun hk1 => Int.le_toNat hnonneg |>.mpr (hhalf hk1), Int.toNat_le.mpr hfit⟩

/-! ## The decoded frequency -/

/-- Replacing a quotient by the nearest integer n moves it by at most half a unit. -/
theorem abs_div_floor_sub_one_le {x : ℚ} {n : ℤ} (hn : n = ⌊x + 1 / 2⌋) (hpos : 0 < n) :
    |x / n - 1| ≤ 1 / (2 * n) := by
  have hn' : (0 : ℚ) < n := mod_cast hpos
  have hdist : |x - n| ≤ 1 / 2 := by
    have h1 := Int.floor_le (x + 1 / 2)
    have h2 := Int.lt_floor_add_one (x + 1 / 2)
    rw [← hn] at h1 h2
    rw [abs_le]
    constructor <;> linarith
  calc |x / n - 1| = |x - n| / n := by rw [div_sub_one hn'.ne', abs_div, abs_of_pos hn']
    _ ≤ 1 / 2 / n := by gcongr
    _ = 1 / (2 * n) := by rw [div_div]

/-- Settles O39: outside the clamp the period plus one is the integer nearest to S/(d·f). -/
theorem decodedFrequencyError : Obligations.DecodedFrequencyError := by
  intro clk b _ hb hhi hlo
  obtain ⟨k, -, -, hnonneg, -, hsearch⟩ := search_between_clamps hb hhi hlo
  have hnearest : cand clk (2 ^ k) b + 1 = ⌊(clk : ℚ) / ((2 ^ k : ℕ) * f32Val b) + 1 / 2⌋ := by
    rw [candidateExact clk (2 ^ k) b (Nat.two_pow_pos k) hb, sub_add_cancel]
  have hperiod : (((cand clk (2 ^ k) b).toNat : ℚ) + 1) = ((cand clk (2 ^ k) b + 1 : ℤ) : ℚ) := by
    rw [← Int.cast_natCast, Int.toNat_of_nonneg hnonneg]
    push_cast
    rfl
  have hf := f32Val_pos hb
  simp only [hsearch, hperiod]
  convert abs_div_floor_sub_one_le hnearest (by omega) using 3
  rw [div_div, div_div]
  congr 1
  ring

end Sys2Proof.Machine
end

