-- ==== Sys2Proof/Proofs/ToneCommands.lean ====
section
/-! O40 to O43: programming and silencing the channel (R142, R147, R148), and the commands SET_TONE (R149) and SILENCE
(R150). -/

namespace Sys2Proof.Machine

/-! ## Programming the channel -/

theorem sameProgram_iff (d : BitVec 9) (p : BitVec 16) (l : BitVec 17) (s : State) :
    sameProgram d p l s = true ↔ s.chEn = true ∧ s.chDiv = d ∧ s.chTop = p ∧ s.chLevel = l := by
  simp [sameProgram, and_assoc]

/-- Settles O40: the program's three numbers fit their registers. -/
theorem programEffect : Obligations.ProgramEffect := by
  intro d p s hd hp
  have hdiv : (BitVec.ofNat 9 d).toNat = d := Nat.mod_eq_of_lt (by omega)
  have htop : (BitVec.ofNat 16 p).toNat = p := Nat.mod_eq_of_lt (by omega)
  have hlevel : (BitVec.ofNat 17 (dutyLevel p)).toNat = (p + 1) / 2 := Nat.mod_eq_of_lt (by rw [dutyLevel]; omega)
  have hsame : sameProgram (BitVec.ofNat 9 d) (BitVec.ofNat 16 p) (BitVec.ofNat 17 (dutyLevel p)) s = true ↔
      s.chEn = true ∧ s.chDiv.toNat = d ∧ s.chTop.toNat = p ∧ s.chLevel.toNat = (p + 1) / 2 := by
    simp only [sameProgram_iff, ← BitVec.toNat_inj, hdiv, htop, hlevel]
  refine ⟨_, rfl, ?_⟩
  rw [← hsame]
  cases hs : sameProgram (BitVec.ofNat 9 d) (BitVec.ofNat 16 p) (BitVec.ofNat 17 (dutyLevel p)) s with
  | true =>
    obtain ⟨hen, hd', hp', hl'⟩ := hsame.mp hs
    rw [program_of_same d p s hs]
    exact ⟨hd', hp', hl', hen, rfl, fun _ => ⟨rfl, rfl⟩, fun hno => (hno rfl).elim⟩
  | false =>
    rw [program_of_new d p s hs]
    exact ⟨hdiv, htop, hlevel, rfl, rfl, nofun, fun _ => ⟨rfl, rfl⟩⟩

/-- Right after programming the channel runs that program. -/
theorem sameProgram_program (d p : Nat) (s : State) :
    sameProgram (BitVec.ofNat 9 d) (BitVec.ofNat 16 p) (BitVec.ofNat 17 (dutyLevel p)) (program d p s) = true := by
  cases hs : sameProgram (BitVec.ofNat 9 d) (BitVec.ofNat 16 p) (BitVec.ofNat 17 (dutyLevel p)) s with
  | true => rwa [program_of_same d p s hs]
  | false =>
    rw [program_of_new d p s hs]
    exact (sameProgram_iff _ _ _ _).mpr ⟨rfl, rfl, rfl, rfl⟩

/-! ## The class of an operand -/

theorem isNaN_iff (b : Word) : isNaN b = true ↔ b.extractLsb' 23 8 = 0xFF#8 ∧ b.extractLsb' 0 23 ≠ 0#23 := by
  simp [isNaN, f32Exp, f32Frac, ← BitVec.toNat_inj]

/-- A NaN's magnitude lies above +∞. -/
theorem isNaN_iff_toNat (b : Word) : isNaN b = true ↔ infPattern < b.toNat % 2 ^ 31 := by
  simp only [isNaN, f32Exp, f32Frac, infPattern, Bool.and_eq_true, beq_iff_eq, bne_iff_ne, BitVec.extractLsb'_toNat,
    Nat.shiftRight_eq_div_pow]
  omega

theorem f32Sign_iff_toNat (b : Word) : f32Sign b = true ↔ 2 ^ 31 ≤ b.toNat := by
  rw [f32Sign, ← BitVec.msb_eq_getLsbD_last, BitVec.msb_eq_decide, decide_eq_true_iff]

theorem classify_of_bad {b : Word}
    (h : (b.extractLsb' 23 8 = 0xFF#8 ∧ b.extractLsb' 0 23 ≠ 0#23) ∨ b = 0x7F800000#32) : classify b = .bad := by
  rw [← isNaN_iff] at h
  exact if_pos (by simpa [isPosInf] using h)

/-- Zero, or from −0.0 down to −∞. -/
theorem classify_of_silent {b : Word}
    (h : b = 0x00000000#32 ∨ (0x80000000 ≤ b.toNat ∧ b.toNat ≤ 0xFF800000)) : classify b = .silent := by
  rcases h with rfl | ⟨hlo, hhi⟩
  · rfl
  have hnan : ¬isNaN b = true := by rw [isNaN_iff_toNat, infPattern]; omega
  have hinf : b ≠ 0x7F800000#32 := by rintro rfl; exact absurd hlo (by decide)
  simp [classify, isPosInf, hnan, hinf, (f32Sign_iff_toNat b).mpr hlo]

theorem classify_of_isPosFinite {b : Word} (h : isPosFinite b = true) : classify b = .tone := by
  have hinf : b ≠ 0x7F800000#32 := by rintro rfl; exact absurd h (by decide)
  have hzero : b ≠ 0x00000000#32 := by rintro rfl; exact absurd h (by decide)
  simp [classify, isPosInf, isNaN_of_isPosFinite h, f32Sign_of_isPosFinite h, hinf, hzero]

/-! ## SET_TONE -/

/-- Settles O41: one arm of `setTone` for each class of operand. -/
theorem setToneEffect : Obligations.SetToneEffect := by
  refine ⟨rfl, fun s => ?_⟩
  simp only [exec_eq_afterCommand, afterCommand, setTone]
  refine ⟨fun h => ?_, fun h => ?_, fun h => ?_⟩
  · rw [classify_of_bad h]
    rfl
  · rw [classify_of_silent h]
    rfl
  · rw [classify_of_isPosFinite (by simpa [isPosFinite] using h)]
    rfl

theorem setTone_freq (clk : Nat) (f : Word) (s : State) : (setTone clk f s).freq = s.freq := by
  rw [setTone_frame]

theorem setTone_setTone (clk : Nat) (f : Word) (s : State) : setTone clk f (setTone clk f s) = setTone clk f s := by
  simp only [setTone]
  cases classify f with
  | bad => simp [report_eq, BitVec.or_assoc]
  | silent => rfl
  | tone =>
    simp only [searchAndProgram]
    rw [program_of_same _ _ (setLastErr .ok (program _ _ s)) (sameProgram_program _ _ s)]
    rfl

/-- Settles O42: the second search gives the program that runs already. -/
theorem setToneIdempotent : Obligations.SetToneIdempotent := fun s =>
  ⟨_, exec_eq_afterCommand .setTone s, by
    rw [exec_eq_afterCommand, afterCommand, afterCommand, setTone_freq, setTone_setTone]⟩

/-! ## SILENCE -/

/-- Settles O43: the level of a disabled channel is low. -/
theorem silenceEffect : Obligations.SilenceEffect := ⟨rfl, fun _ => ⟨rfl, rfl⟩⟩

end Sys2Proof.Machine
end

