-- ==== Sys2Proof/Proofs/FrontEnds.lean ====
section
/-! O19, O44 to O46: the front-end commands NOP (R171), PLAY_TOKEN (R172 to R174) and KEY_TONE (R175, R176). -/

namespace Sys2Proof.Machine

/-! ## PLAY_TOKEN -/

theorem exec_playToken_eq (s : State) :
    exec .playToken s = .next (driveChannel Config.sysClkHz (resolve (token s)) (afterCommand .resolve s)) := rfl

theorem driveChannel_of_pitch {r : Resolution} (h : r.kind = .pitch) (clk : Nat) (s : State) :
    driveChannel clk r s = searchAndProgram clk r.freq s := by
  simp only [driveChannel, h]

theorem driveChannel_of_rest {r : Resolution} (h : r.kind = .rest) (clk : Nat) (s : State) :
    driveChannel clk r s = silence s := by
  simp only [driveChannel, h]

theorem driveChannel_of_invalid {r : Resolution} (h : r.kind = .invalid) (clk : Nat) (s : State) :
    driveChannel clk r s = if s.errSilence then silence s else s := by
  simp only [driveChannel, h]

theorem commitResult_errSilence (r : Resolution) (s : State) : (commitResult r s).errSilence = s.errSilence := by
  rw [commitResult_frame]

/-- R125: the record that an invalid token leaves. -/
theorem commitResult_reports_invalid {r : Resolution} (h : r.kind = .invalid) (s : State) :
    (commitResult r s).resKind = .invalid ∧ (commitResult r s).lastErr = .tokenInvalid ∧
      (commitResult r s).errflags.getLsbD 2 = true := by
  simp [commitResult_of_invalid r s h, report_eq, stickyBit]

/-- Settles O44: one arm of `driveChannel` for each kind of token, on the state RESOLVE leaves. -/
theorem playTokenEffect : Obligations.PlayTokenEffect := by
  refine ⟨rfl, fun s => ⟨_, exec_eq_afterCommand .resolve s, ?_⟩⟩
  rw [exec_playToken_eq, afterCommand]
  refine ⟨fun h => ?_, fun h => ?_, fun h => ?_, resolveWith_kind_ne_noResult freqFn (token s)⟩
  · rw [driveChannel_of_pitch h, commitResult_of_pitch _ _ h]
    rfl
  · rw [driveChannel_of_rest h, silence_eq]
  · obtain ⟨hkind, herr, hsticky⟩ := commitResult_reports_invalid h s
    have hmode : (commitResult (resolve (token s)) s).errSilence = s.errSilence := commitResult_errSilence _ s
    rw [driveChannel_of_invalid h]
    refine ⟨hkind, herr, hsticky, fun hsilence => ?_, fun hkeep => ?_⟩
    · rw [if_pos (hmode.trans hsilence), silence_eq]
    · rw [if_neg (Bool.eq_false_iff.mp (hmode.trans hkeep))]

/-! ## KEY_TONE -/

/-- A CMD word with RSV = 0 is its OPC with ARG shifted in. -/
theorem cmd32_eq_or (arg opc : Byte) : cmd32 arg opc = opc.setWidth 32 ||| (arg.setWidth 32 <<< 8) := by
  have hfits : arg.toNat <<< 8 < 2 ^ 32 := by
    rw [Nat.shiftLeft_eq]
    omega
  rw [← BitVec.toNat_inj, cmd32_toNat, ← Nat.shiftLeft_eq, Nat.shiftLeft_add_eq_or_of_lt opc.isLt, Nat.or_comm,
    BitVec.toNat_or, BitVec.toNat_shiftLeft, BitVec.toNat_setWidth_of_le (by decide),
    BitVec.toNat_setWidth_of_le (by decide), Nat.mod_eq_of_lt hfits]

/-- R175's key map: 'A' to 'E' sound. -/
theorem keyFreq_eq_some_iff (b : Byte) (f : Word) :
    keyFreq b = some f ↔
      (b, f) ∈ [(0x41#8, 0x42C80000#32), (0x42#8, 0x43480000#32), (0x43#8, 0x43960000#32), (0x44#8, 0x43C80000#32),
        (0x45#8, 0x43FA0000#32)] := by
  constructor
  · unfold keyFreq
    split_ifs <;> rintro ⟨⟩ <;> subst b <;> decide
  · simp only [List.mem_cons, List.not_mem_nil, or_false, Prod.mk.injEq]
    rintro (⟨rfl, rfl⟩ | ⟨rfl, rfl⟩ | ⟨rfl, rfl⟩ | ⟨rfl, rfl⟩ | ⟨rfl, rfl⟩) <;> rfl

theorem keyFreq_eq_none_iff (b : Byte) : keyFreq b = none ↔ b.toNat < 0x41 ∨ 0x45 < b.toNat := by
  revert b
  decide

theorem keyTone_of_some {b : Byte} {f : Word} (h : keyFreq b = some f) (clk : Nat) (s : State) :
    keyTone clk b s = setLastErr .ok (searchAndProgram clk f s) := by
  simp only [keyTone, h]

theorem keyTone_of_none {b : Byte} (h : keyFreq b = none) (clk : Nat) (s : State) :
    keyTone clk b s = setLastErr .ok (silence s) := by
  simp only [keyTone, h]

/-- Settles O45: the key map has a frequency or none for the byte. -/
theorem keyToneEffect : Obligations.KeyToneEffect := by
  intro b s
  rw [exec_eq_afterCommand, afterCommand]
  refine ⟨cmd32_eq_or b 0x07#8, fun f hf => ?_, fun hb => ?_⟩
  · rw [keyTone_of_some ((keyFreq_eq_some_iff b f).mpr hf)]
    rfl
  · rw [keyTone_of_none ((keyFreq_eq_none_iff b).mpr hb)]
    rfl

/-- Settles O46: the search and the duty level, computed at the reference clock. -/
theorem keyTonePrograms : Obligations.KeyTonePrograms := by
  unfold Obligations.KeyTonePrograms
  decide

/-! ## NOP -/

/-- Settles O19: NOP's one update is that of LAST_ERR. -/
theorem nopEffect : Obligations.NopEffect := ⟨rfl, exec_eq_afterCommand .nop⟩

end Sys2Proof.Machine
end

