-- ==== Sys2Proof/Proofs/Timer.lean ====
section
/-! O13 to O18: the timer channel (R211 to R213), its output (R212, R216) and the decoded waveform (R215). -/

namespace Sys2Proof.Machine

/-! ## The output -/

theorem toneOut_iff (s : State) : toneOut s = true ↔ s.chEn = true ∧ s.ctr.toNat < s.chLevel.toNat := by
  simp [toneOut]

theorem toneOut_of_enabled {s : State} (h : s.chEn = true) :
    toneOut s = decide (s.ctr.toNat < s.chLevel.toNat) := by
  rw [toneOut, h, Bool.true_and]

theorem toneOut_of_disabled {s : State} (h : s.chEn = false) : toneOut s = false := by
  rw [toneOut, h, Bool.false_and]

/-- Settles O17: R212's two conjuncts. -/
theorem outputFunction : Obligations.OutputFunction := fun s => ⟨toneOut_iff s, toneOut_of_disabled⟩

theorem toneOut_of_chLevel_zero {s : State} (h : s.chLevel = 0#17) : toneOut s = false := by
  simp [toneOut, h]

/-- Settles O18: each corner is R36's duty level (top + 1) div 2 at that period. -/
theorem outputCorners : Obligations.OutputCorners := by
  intro s h hen
  have hduty := h.duty hen
  refine ⟨fun htop => ?_, fun htop => ?_, fun heven => by omega⟩
  · have hlevel : s.chLevel = 0#17 := BitVec.eq_of_toNat_eq (by rw [hduty, htop]; rfl)
    exact ⟨hlevel, toneOut_of_chLevel_zero hlevel⟩
  · exact BitVec.eq_of_toNat_eq (by rw [hduty, htop]; rfl)

/-! ## One clock edge -/

@[simp] theorem onClockEdge_ctr (s : State) : (onClockEdge s).ctr = (timerStep s).ctr := rfl

@[simp] theorem onClockEdge_presc (s : State) : (onClockEdge s).presc = (timerStep s).presc := rfl

/-- The timer's counter advances, and its new level is observed. -/
theorem onClockEdge_eq (s : State) :
    onClockEdge s =
      { s with
        ctr := (timerStep s).ctr, presc := (timerStep s).presc
        observed := .toneOut (toneOut (timerStep s)) :: s.observed } := by
  rw [onClockEdge, timerStep_frame]
  rfl

theorem setPending_of_pending {s : State} {es : List Event} (h : s.pending = es) : setPending es s = s := by
  subst h
  rfl

theorem step_clockEdge {s : State} {es : List Event} (h : s.pending = .clockEdge :: es) :
    step s = .next (onClockEdge (setPending es s)) := step_of_pending h

theorem step_idle {s : State} (h : s.pending = []) : step s = .next (onClockEdge s) := by
  simp only [step, runNext, h]

/-- Settles O14: with the one edge taken from the list, the same state meets it. -/
theorem idleIsClockEdge : Obligations.IdleIsClockEdge := by
  intro s h
  have hs : setPending [] { s with pending := [.clockEdge] } = s := setPending_of_pending h
  rw [step_idle h, step_clockEdge (es := []) rfl, hs]

namespace ChannelInv

variable {s : State} (h : ChannelInv s)
include h

theorem chDiv_le : s.chDiv.toNat ≤ 256 := by
  have := h.divider
  simp only [List.mem_cons, List.not_mem_nil, or_false] at this
  omega

/-- PRESC does not wrap at its width before the divider's end. -/
theorem toNat_presc_add_one (hlast : s.presc.toNat + 1 ≠ s.chDiv.toNat) : (s.presc + 1).toNat = s.presc.toNat + 1 := by
  have := h.chDiv_le
  have := h.prescale
  exact toNat_add_one_of_lt (by omega)

/-- CTR does not wrap at its width before the period's end. -/
theorem toNat_next_ctr :
    (if s.ctr = s.chTop then 0 else s.ctr + 1).toNat = if s.ctr = s.chTop then 0 else s.ctr.toNat + 1 := by
  split
  case isTrue => rfl
  case isFalse hne =>
    have hlt : s.ctr.toNat < s.chTop.toNat := lt_of_le_of_ne h.counter fun he => hne (BitVec.eq_of_toNat_eq he)
    exact toNat_add_one_of_lt (Nat.lt_of_le_of_lt hlt s.chTop.isLt)

end ChannelInv

/-- Settles O13: the three cases of `timerStep`, and its two bounds from the invariant it keeps. -/
theorem clockEdge : Obligations.ClockEdge := by
  intro s rest h hp
  obtain ⟨hc, -, -⟩ := stateInv_iff.mp (h.setPending rest)
  refine ⟨_, step_clockEdge hp, onClockEdge_eq (setPending rest s), ?disabled, ?prescale, ?count,
    hc.timerStep.counter, hc.timerStep.prescale⟩
  case disabled =>
    intro hen
    rw [onClockEdge_ctr, onClockEdge_presc, timerStep_disabled (setPending rest s) hen]
    exact ⟨rfl, rfl⟩
  case prescale =>
    intro hen hlt
    have hne : s.presc.toNat + 1 ≠ s.chDiv.toNat := by omega
    rw [onClockEdge_ctr, onClockEdge_presc, timerStep_prescale (setPending rest s) hen hne]
    exact ⟨rfl, hc.toNat_presc_add_one hne⟩
  case count =>
    intro hen hlast
    have hend : s.presc.toNat + 1 = s.chDiv.toNat := by
      have := h.prescale
      omega
    rw [onClockEdge_ctr, onClockEdge_presc, timerStep_count (setPending rest s) hen hend]
    exact ⟨rfl, hc.toNat_next_ctr⟩

/-! ## Runs of clock edges -/

theorem timerStep_setPending (es : List Event) (s : State) :
    timerStep (setPending es s) = setPending es (timerStep s) := by
  simp only [timerStep, apply_ite (setPending es)]
  rfl

/-- A clock edge does not look at the events to come. -/
theorem onClockEdge_setPending (es : List Event) (s : State) :
    onClockEdge (setPending es s) = setPending es (onClockEdge s) := by
  rw [onClockEdge, timerStep_setPending]
  rfl

theorem run_clockEdges (k : Nat) {s : State} {rest : List Event}
    (hp : s.pending = List.replicate k .clockEdge ++ rest) :
    core.run k s = .next (onClockEdge^[k] (setPending rest s)) := by
  induction k generalizing s with
  | zero => exact congrArg Host.Outcome.next (setPending_of_pending hp).symm
  | succ k ih =>
    have hstep : core.step s = .next (onClockEdge (setPending (List.replicate k .clockEdge ++ rest) s)) :=
      step_clockEdge hp
    simp only [Host.Core.run, hstep]
    rw [onClockEdge_setPending, ih rfl, Function.iterate_succ_apply, onClockEdge_setPending]
    rfl

theorem onClockEdge_of_disabled {s : State} (h : s.chEn = false) :
    onClockEdge s = observe (.toneOut false) s := by
  rw [onClockEdge, timerStep_disabled s h, toneOut_of_disabled h]

theorem iterate_onClockEdge_of_disabled {s : State} (h : s.chEn = false) (k : Nat) :
    onClockEdge^[k] s = { s with observed := List.replicate k (.toneOut false) ++ s.observed } := by
  induction k with
  | zero => rfl
  | succ k ih =>
    rw [Function.iterate_succ_apply', ih]
    exact onClockEdge_of_disabled h

/-- Settles O16: each edge only records a low level. -/
theorem disabledChannelHolds : Obligations.DisabledChannelHolds := by
  intro s k rest hen
  exact (run_clockEdges k rfl).trans
    (congrArg Host.Outcome.next (iterate_onClockEdge_of_disabled (s := setPending rest s) hen k))

/-! ## The phase of a cycle -/

/-- Where the channel is in its cycle, in clocks from its start: R215's phase. -/
def phase (s : State) : Nat := s.chDiv.toNat * s.ctr.toNat + s.presc.toNat

/-- A cycle's length in clocks (R215). -/
def cycleLength (s : State) : Nat := s.chDiv.toNat * (s.chTop.toNat + 1)

theorem cycleLength_timerStep (s : State) : cycleLength (timerStep s) = cycleLength s := by
  rw [timerStep_frame]
  rfl

namespace ChannelInv

variable {s : State} (h : ChannelInv s)
include h

theorem phase_lt_cycleLength : phase s < cycleLength s :=
  calc phase s < s.chDiv.toNat * (s.ctr.toNat + 1) := Nat.add_lt_add_left h.prescale _
    _ ≤ cycleLength s := Nat.mul_le_mul_left _ (Nat.succ_le_succ h.counter)

/-- CTR is the phase in whole divider periods. -/
theorem ctr_eq_phase_div : s.ctr.toNat = phase s / s.chDiv.toNat := by
  rw [phase, Nat.mul_add_div (Nat.zero_lt_of_lt h.prescale), Nat.div_eq_of_lt h.prescale, Nat.add_zero]

theorem toneOut_eq_phase_lt (hen : s.chEn = true) : toneOut s = decide (phase s < s.chDiv.toNat * s.chLevel.toNat) := by
  simp only [toneOut_of_enabled hen, h.ctr_eq_phase_div, Nat.div_lt_iff_lt_mul (Nat.zero_lt_of_lt h.prescale), mul_comm]

/-- The timer advances the phase by one clock, or ends the cycle. -/
theorem phase_timerStep_cases (hen : s.chEn = true) :
    phase (Machine.timerStep s) = phase s + 1 ∨ (phase (Machine.timerStep s) = 0 ∧ phase s + 1 = cycleLength s) := by
  by_cases hlast : s.presc.toNat + 1 = s.chDiv.toNat
  · have hnext := h.toNat_next_ctr
    rw [timerStep_count s hen hlast]
    simp only [phase, cycleLength, hnext, add_assoc, hlast, ← mul_add_one]
    by_cases hend : s.ctr = s.chTop
    · exact .inr ⟨by rw [if_pos hend]; rfl, by rw [hend]⟩
    · exact .inl (by rw [if_neg hend]; rfl)
  · rw [timerStep_prescale s hen hlast]
    exact .inl (congrArg (s.chDiv.toNat * s.ctr.toNat + ·) (h.toNat_presc_add_one hlast))

theorem phase_timerStep (hen : s.chEn = true) : phase (Machine.timerStep s) = (phase s + 1) % cycleLength s := by
  rcases h.phase_timerStep_cases hen with hnext | ⟨hzero, hend⟩
  · have hlt := h.timerStep.phase_lt_cycleLength
    rw [hnext, cycleLength_timerStep] at hlt
    rw [hnext, Nat.mod_eq_of_lt hlt]
  · rw [hzero, hend, Nat.mod_self]

theorem onClockEdge : ChannelInv (onClockEdge s) := h.timerStep.congr ⟨rfl, rfl, rfl, rfl, rfl, rfl⟩

end ChannelInv

/-- Only the counter and the observations can differ after any number of clock edges. -/
theorem iterate_onClockEdge_frame (s : State) (k : Nat) :
    ∃ c p o, onClockEdge^[k] s = { s with ctr := c, presc := p, observed := o } := by
  induction k with
  | zero => exact ⟨_, _, _, rfl⟩
  | succ k ih =>
    obtain ⟨c, p, o, h⟩ := ih
    rw [Function.iterate_succ_apply', h, onClockEdge_frame]
    exact ⟨_, _, _, rfl⟩

theorem channelInv_iterate_onClockEdge {s : State} (h : ChannelInv s) (k : Nat) : ChannelInv (onClockEdge^[k] s) :=
  Function.Iterate.rec ChannelInv h (fun _ => ChannelInv.onClockEdge) k

/-- The phase counts clocks modulo the cycle. -/
theorem phase_iterate_onClockEdge {s : State} (h : ChannelInv s) (hen : s.chEn = true) (k : Nat) :
    phase (onClockEdge^[k] s) = (phase s + k) % cycleLength s := by
  induction k with
  | zero => exact (Nat.mod_eq_of_lt h.phase_lt_cycleLength).symm
  | succ k ih =>
    obtain ⟨c, p, o, hframe⟩ := iterate_onClockEdge_frame s k
    have henk : (onClockEdge^[k] s).chEn = true := by rwa [hframe]
    have hcycle : cycleLength (onClockEdge^[k] s) = cycleLength s := by rw [hframe]; rfl
    rw [Function.iterate_succ_apply']
    calc phase (onClockEdge (onClockEdge^[k] s))
      _ = (phase (onClockEdge^[k] s) + 1) % cycleLength (onClockEdge^[k] s) :=
        (channelInv_iterate_onClockEdge h k).phase_timerStep henk
      _ = (phase s + (k + 1)) % cycleLength s := by rw [ih, hcycle, Nat.mod_add_mod, add_assoc]

/-- Settles O15: after k edges the phase decides the output. -/
theorem waveform : Obligations.Waveform := by
  intro s k rest h hen
  obtain ⟨hc, -, -⟩ := stateInv_iff.mp (h.setPending rest)
  obtain ⟨c, p, o, hframe⟩ := iterate_onClockEdge_frame (setPending rest s) k
  refine ⟨onClockEdge^[k] (setPending rest s), run_clockEdges k rfl, ?_, by rw [hframe]; rfl⟩
  rw [(channelInv_iterate_onClockEdge hc k).toneOut_eq_phase_lt (by rwa [hframe]), phase_iterate_onClockEdge hc hen,
    hframe]
  rfl

end Sys2Proof.Machine
end

