-- ==== Sys2Proof/Proofs/CommandOutcomes.lean ====
section
/-! O10, O48, O51: how a step and a command can end: the refused requester (R221), the error record (R190, R192), and a
new tone's start (R213, R244). -/

namespace Sys2Proof.Machine

/-- Settles O10: the requester is checked first. -/
theorem secondRequesterRefused : Obligations.SecondRequesterRefused := fun _ _ _ hp => step_of_pending hp

/-! ## The error record -/

/-- The command left e in LAST_ERR and raised e's sticky bit only (R192). -/
def Records (e : ErrCode) (s t : State) : Prop := t.lastErr = e ∧ t.errflags = s.errflags ||| stickyBit e

theorem records_report (e : ErrCode) (s : State) : Records e s (report e s) := ⟨rfl, rfl⟩

/-- OK has no sticky bit. -/
theorem records_ok {s t : State} (herr : t.lastErr = .ok) (hflags : t.errflags = s.errflags) : Records .ok s t :=
  ⟨herr, by rw [hflags, stickyBit]; exact BitVec.or_zero.symm⟩

theorem commitResult_records (r : Resolution) (s : State) :
    ∃ e ∈ [ErrCode.ok, .tokenInvalid], Records e s (commitResult r s) := by
  simp only [commitResult]
  split
  · exact ⟨.tokenInvalid, by decide, rfl, rfl⟩
  · exact ⟨.ok, by decide, records_ok rfl rfl⟩

theorem playToken_records (clk : Nat) (s : State) :
    ∃ e ∈ [ErrCode.ok, .tokenInvalid], Records e s (playToken clk s) := by
  rw [playToken, driveChannel_frame]
  exact commitResult_records (resolve (token s)) s

theorem setTone_records (clk : Nat) (f : Word) (s : State) :
    ∃ e ∈ [ErrCode.ok, .badFreq], Records e s (setTone clk f s) := by
  simp only [setTone]
  split
  · exact ⟨.badFreq, by decide, records_report .badFreq s⟩
  · exact ⟨.ok, by decide, records_ok rfl rfl⟩
  · rw [searchAndProgram_frame]
    exact ⟨.ok, by decide, records_ok rfl rfl⟩

theorem keyTone_lastErr (clk : Nat) (b : Byte) (s : State) : (keyTone clk b s).lastErr = .ok := by
  cases h : keyFreq b with
  | some f => rw [keyTone_of_some h]; rfl
  | none => rw [keyTone_of_none h]; rfl

theorem afterCommand_records (i : Instr) (s : State) : ∃ e ∈ allowedErr i, Records e s (afterCommand i s) := by
  cases i with
  | resolve => exact commitResult_records (resolve (token s)) s
  | setTone => exact setTone_records Config.sysClkHz s.freq s
  | playToken => exact playToken_records Config.sysClkHz s
  | nop | tokClear | silence => exact ⟨.ok, List.mem_singleton_self _, records_ok rfl rfl⟩
  | tokPush b => exact ⟨.ok, List.mem_singleton_self _, records_ok rfl (by rw [afterCommand, pushToken_frame]; rfl)⟩
  | keyTone b =>
    exact ⟨.ok, List.mem_singleton_self _,
      records_ok (keyTone_lastErr Config.sysClkHz b s) (by rw [afterCommand, keyTone_frame])⟩

/-- Settles O48: every command records one of its codes. -/
theorem commandsComplete : Obligations.CommandsComplete := by
  intro i s
  obtain ⟨e, hallowed, herr, hflags⟩ := afterCommand_records i s
  subst herr
  refine ⟨afterCommand i s, exec_eq_afterCommand i s, hallowed, hflags.trans ?_⟩
  cases (afterCommand i s).lastErr <;> rfl

/-! ## A new tone -/

/-- The channel is off, keeps running what it ran, or is at the beginning of a cycle (R142, R148). -/
def OffKeptOrRestarted (s t : State) : Prop :=
  t.chEn = false ∨ (t.chEn = s.chEn ∧ t.chDiv = s.chDiv ∧ t.chTop = s.chTop ∧ t.chLevel = s.chLevel) ∨
    (t.ctr = 0#16 ∧ t.presc = 0#8)

theorem offKeptOrRestarted_refl (s : State) : OffKeptOrRestarted s s := .inr (.inl ⟨rfl, rfl, rfl, rfl⟩)

theorem offKeptOrRestarted_searchAndProgram (clk : Nat) (b : Word) (s : State) :
    OffKeptOrRestarted s (searchAndProgram clk b s) := by
  rw [searchAndProgram]
  generalize (search clk b).1 = d, (search clk b).2 = p
  cases hs : sameProgram (BitVec.ofNat 9 d) (BitVec.ofNat 16 p) (BitVec.ofNat 17 (dutyLevel p)) s with
  | true => rw [program_of_same d p s hs]; exact offKeptOrRestarted_refl s
  | false => rw [program_of_new d p s hs]; exact .inr (.inr ⟨rfl, rfl⟩)

theorem offKeptOrRestarted_driveChannel (clk : Nat) (r : Resolution) (s : State) :
    OffKeptOrRestarted s (driveChannel clk r s) := by
  simp only [driveChannel]
  split
  · exact offKeptOrRestarted_searchAndProgram clk r.freq s
  · exact .inl rfl
  · split
    · exact .inl rfl
    · exact offKeptOrRestarted_refl s
  · exact offKeptOrRestarted_refl s

theorem offKeptOrRestarted_afterCommand (i : Instr) (s : State) : OffKeptOrRestarted s (afterCommand i s) := by
  obtain ⟨-, -, -, -, -, -, -, -, hkeep⟩ := whoWritesWhat i s _ (exec_eq_afterCommand i s)
  cases i with
  | setTone =>
    simp only [afterCommand, setTone]
    split
    · exact offKeptOrRestarted_refl s
    · exact .inl rfl
    · exact offKeptOrRestarted_searchAndProgram Config.sysClkHz s.freq s
  | silence => exact .inl rfl
  | playToken =>
    have h := offKeptOrRestarted_driveChannel Config.sysClkHz (resolve (token s)) (commitResult (resolve (token s)) s)
    rw [afterCommand, playToken]
    rw [commitResult_frame] at h ⊢
    exact h
  | keyTone b =>
    simp only [afterCommand, keyTone]
    split
    · exact offKeptOrRestarted_searchAndProgram Config.sysClkHz _ s
    · exact .inl rfl
  | nop | tokClear | tokPush b | resolve =>
    obtain ⟨hen, hdiv, htop, hlevel, -, -⟩ := hkeep nofun nofun nofun nofun
    exact .inr (.inl ⟨hen, hdiv, htop, hlevel⟩)

/-- Settles O51: an enabled channel that does not run what it ran was restarted. -/
theorem newToneStartsCycle : Obligations.NewToneStartsCycle := by
  intro i s t h hen hnew
  rw [exec_next_iff] at h
  subst h
  rcases offKeptOrRestarted_afterCommand i s with hoff | ⟨hsame, hdiv, htop, hlevel⟩ | ⟨hctr, hpresc⟩
  · exact absurd (hoff.symm.trans hen) nofun
  · rw [← hsame, hen] at hnew
    rcases hnew with hoff | hne | hne | hne
    · cases hoff
    · exact absurd hdiv hne
    · exact absurd htop hne
    · exact absurd hlevel hne
  · exact ⟨hctr, hpresc, by rw [toneOut_iff, hctr]; exact and_iff_right hen⟩

end Sys2Proof.Machine
end

