-- ==== Sys2Proof/Proofs/ResetAndHazards.lean ====
section
/-! O11, O12, O50: the reset input and the state after reset (R230, R231), and the four commands that silence (R245). -/

namespace Sys2Proof.Machine

/-! ## Reset -/

/-- Settles O11: TONE_OUT is low because the channel is disabled; the rest are stored values. -/
theorem resetValues : Obligations.ResetValues :=
  ⟨rfl, rfl, rfl, rfl, rfl, rfl, rfl, rfl, rfl, rfl, rfl, toneOut_of_disabled rfl⟩

/-- R230: while reset is asserted no access is admitted, whatever its offset and width. -/
theorem onAccess_host_inReset {s : State} (acc : Access) (h : s.inReset = true) :
    onAccess .host acc s = .fault (.busError (accessOffset acc)) := by
  simp only [onAccess, h, Bool.true_or, if_true]

/-- Settles O12: the two reset events and a host access while reset is asserted. -/
theorem resetInput : Obligations.ResetInput := by
  intro s rest
  refine ⟨fun hp => ?assert, fun hr acc hp => ?access, fun hp => step_of_pending hp⟩
  case assert => exact ⟨assertReset (setPending rest s), step_of_pending hp, rfl⟩
  case access => exact (step_of_pending hp).trans (onAccess_host_inReset acc hr)

/-! ## Silencing -/

/-- From s to t the channel was disabled with its counter held (R142). -/
def Silenced (s t : State) : Prop := t.chEn = false ∧ t.ctr = s.ctr ∧ t.presc = s.presc

theorem silenced_silence (s : State) : Silenced s (silence s) := ⟨rfl, rfl, rfl⟩

theorem silenced_setTone {b : Word} (h : classify b = .silent) (clk : Nat) (s : State) :
    Silenced s (setTone clk b s) := by
  simp only [setTone, h]
  exact silenced_silence s

/-- R172 to R174: a rest silences, and so does an invalid token under ERR_SILENCE = 1. -/
theorem silenced_driveChannel {r : Resolution} {s : State}
    (h : r.kind = .rest ∨ (r.kind = .invalid ∧ s.errSilence = true)) (clk : Nat) :
    Silenced s (driveChannel clk r s) := by
  rcases h with hrest | ⟨hinvalid, herr⟩
  · rw [driveChannel_of_rest hrest]
    exact silenced_silence s
  · rw [driveChannel_of_invalid hinvalid, if_pos herr]
    exact silenced_silence s

/-- Writing the resolution leaves ERR_SILENCE, CTR and PRESC alone, so the channel is driven from where it was. -/
theorem silenced_playToken {s : State}
    (h : (resolve (token s)).kind = .rest ∨ ((resolve (token s)).kind = .invalid ∧ s.errSilence = true)) (clk : Nat) :
    Silenced s (playToken clk s) := by
  rw [← commitResult_errSilence (resolve (token s)) s] at h
  have hdrive := silenced_driveChannel h clk
  rw [playToken]
  rw [commitResult_frame] at hdrive ⊢
  exact hdrive

theorem silenced_keyTone {b : Byte} (h : keyFreq b = none) (clk : Nat) (s : State) : Silenced s (keyTone clk b s) := by
  rw [keyTone_of_none h]
  exact silenced_silence s

/-- Settles O50: each of the four commands disables the channel, and a disabled channel is low. -/
theorem silencingImmediate : Obligations.SilencingImmediate := by
  intro i s t h hi
  rw [exec_next_iff] at h
  subst h
  have hsilenced : Silenced s (afterCommand i s) := by
    rcases hi with rfl | ⟨rfl, hfreq⟩ | ⟨rfl, htoken⟩ | ⟨b, rfl, hkey⟩
    · exact silenced_silence s
    · exact silenced_setTone (classify_of_silent hfreq) Config.sysClkHz s
    · exact silenced_playToken htoken Config.sysClkHz
    · exact silenced_keyTone ((keyFreq_eq_none_iff b).mpr hkey) Config.sysClkHz s
  obtain ⟨hoff, hheld⟩ := hsilenced
  exact ⟨hoff, toneOut_of_disabled hoff, hheld⟩

end Sys2Proof.Machine
end
